-- ==== Sys2Proof/Word.lean ====
section
/-! DEFINITION. The machine's word and byte types (00_scope.md R5, R10): every register, memory word and address is an
unsigned 16-bit value, and arithmetic on it wraps modulo 65536, which is what `BitVec 16` does. -/

namespace Sys2Proof

/-- A 16-bit word: register contents, memory words, addresses, instruction words (R5, R10). -/
abbrev Word := BitVec 16

/-- An 8-bit value: a keyboard or console byte (R37, R38), one half of a word. -/
abbrev Byte := BitVec 8

end Sys2Proof
end

