-- ==== Sys2Proof/Config.lean ====
section
/-! DEFINITION. What an implementation fixes: the SHAPE of the parameters of 00_scope.md R6 (`Params`) and R7 (`Options`).
Their VALUES are in Machine/Params.lean, where a repair may change them. `IMAGES` (R7) is the argument of `Machine.boot`.
Nothing here is state (10_state.md R42). -/

namespace Sys2Proof

/-- The sixteen opcode classes, a closed list (30_encoding.md R95, R96). -/
inductive OpClass where
  | br | add | ld | st | jsr | and | ldr | str
  | rti | not | ldi | sti | jmp | reserved | lea | trap
deriving DecidableEq, Repr

/-- `OPMAP` and its inverse: which class each value of `ir[15:12]` selects (R7, R95). -/
structure OpMap where
  /-- `OPMAP`: the class a 4-bit opcode selects. -/
  classOf : BitVec 4 → OpClass
  /-- `OPMAP⁻¹`: the opcode of a class. -/
  codeOf : OpClass → BitVec 4

/-- R95: "`OPMAP` is a bijection". -/
def OpMap.Bijective (m : OpMap) : Prop :=
  (∀ c, m.classOf (m.codeOf c) = c) ∧ ∀ b, m.codeOf (m.classOf b) = b

/-- `IN_ECHO` (R7, 43_trap_and_unused.md R204): what the IN service writes to the console. -/
inductive InEcho where
  /-- Nothing: no prompt and no echo. -/
  | none
  /-- The byte read. -/
  | echo
deriving DecidableEq, Repr

/-- `PUTS_WIDE` (R7, 43_trap_and_unused.md R203): what PUTS does with a string word above `0x00FF`. -/
inductive PutsWide where
  /-- The PUTS step has no meaning when its scan meets such a word. -/
  | refuse
  /-- It writes the word's bits 7:0. -/
  | lowByte
deriving DecidableEq, Repr

/-- The parameters the source leaves open (R7), but for `IMAGES`: the arguments of `Machine.stepWith`. -/
structure Options where
  /-- `OPMAP`. -/
  opMap : OpMap
  /-- `UNKNOWN_TRAP_FATAL`: whether an unrecognised trap vector moves the machine to FAULTED. -/
  unknownTrapFatal : Bool
  /-- `IN_ECHO`. -/
  inEcho : InEcho
  /-- `PUTS_WIDE`. -/
  putsWide : PutsWide

/-- The numeric constants of R6. -/
structure Params where
  /-- `KBSR_ADDR`: the status address. -/
  kbsrAddr : Word
  /-- `KBDR_ADDR`: the data address. -/
  kbdrAddr : Word
  /-- `KBSR_READY`: the status word when a byte was pending. -/
  kbsrReady : Word
  /-- `START_PC`: the program counter at reset. -/
  startPc : Word
  /-- `V_GETC`. -/
  vGetc : BitVec 8
  /-- `V_OUT`. -/
  vOut : BitVec 8
  /-- `V_PUTS`. -/
  vPuts : BitVec 8
  /-- `V_IN`. -/
  vIn : BitVec 8
  /-- `V_PUTSP`. -/
  vPutsp : BitVec 8
  /-- `V_HALT`. -/
  vHalt : BitVec 8
deriving DecidableEq, Repr

end Sys2Proof
end

