-- ==== Sys2Proof/Machine/Params.lean ====
section
/-! DEFINITION. The parameter values (00_scope.md R6, R7). They stand in a file of Machine/ so that a repair may mend
one. -/

namespace Sys2Proof

/-- The default `OPMAP` of R96. PRESUMED (notes/assumptions/1.md): the numbers are the spec's general knowledge. -/
def opMap : OpMap where
  classOf b := match b.toNat with
    | 0 => .br | 1 => .add | 2 => .ld | 3 => .st | 4 => .jsr | 5 => .and | 6 => .ldr | 7 => .str
    | 8 => .rti | 9 => .not | 10 => .ldi | 11 => .sti | 12 => .jmp | 13 => .reserved | 14 => .lea | _ => .trap
  codeOf
    | .br => 0#4 | .add => 1#4 | .ld => 2#4 | .st => 3#4 | .jsr => 4#4 | .and => 5#4 | .ldr => 6#4 | .str => 7#4
    | .rti => 8#4 | .not => 9#4 | .ldi => 10#4 | .sti => 11#4 | .jmp => 12#4 | .reserved => 13#4 | .lea => 14#4
    | .trap => 15#4

end Sys2Proof

namespace Sys2Proof.Machine

/-- R6's defaults. -/
def params : Params where
  kbsrAddr := 0xFE00#16
  kbdrAddr := 0xFE02#16
  kbsrReady := 0x8000#16
  startPc := 0x3000#16
  vGetc := 0x20#8
  vOut := 0x21#8
  vPuts := 0x22#8
  vIn := 0x23#8
  vPutsp := 0x24#8
  vHalt := 0x25#8

/-- R7's defaults. `stepWith defaultOptions` is the step under them. -/
def defaultOptions : Options where
  opMap := opMap
  unknownTrapFatal := false
  inEcho := .none
  putsWide := .refuse

/-- The values `exec` and `step` run with: R7's defaults, but for `PUTS_WIDE`. DESIGN CHOICE (notes/assumptions/13.md): it
is R7's alternative `low_byte`, so that PUTS runs on every string; unsafe. -/
def options : Options := { defaultOptions with putsWide := .lowByte }

end Sys2Proof.Machine
end

