-- ==== Sys2Proof/Syntax.lean ====
section
/-! DEFINITION. The instruction set: one constructor per row of spec/opcode_table.json (30_encoding.md R94). A field
keeps the width its encoding gives it (R91), so that no operand out of range can be written. Don't-care bits are read by
nothing (R99) and are no operands. -/

namespace Sys2Proof

/-- The number of a general register, `R0` to `R7` (10_state.md R20). -/
abbrev Reg := Fin 8

/-- One instruction form of 30_encoding.md R94. Offsets and immediates are the raw fields, extended by the machine. -/
inductive Instr where
  /-- `ADD DR,SR1,SR2` (40_operate.md R131). -/
  | addReg (dr sr1 sr2 : Reg)
  /-- `ADD DR,SR1,#imm5` (R131). -/
  | addImm (dr sr1 : Reg) (imm5 : BitVec 5)
  /-- `AND DR,SR1,SR2` (R132). -/
  | andReg (dr sr1 sr2 : Reg)
  /-- `AND DR,SR1,#imm5` (R132). -/
  | andImm (dr sr1 : Reg) (imm5 : BitVec 5)
  /-- `NOT DR,SR` (R133). -/
  | not (dr sr1 : Reg)
  /-- `BR` with its three test bits (41_control.md R151). -/
  | br (n z p : Bool) (off9 : BitVec 9)
  /-- `JMP BaseR` (R152). -/
  | jmp (base : Reg)
  /-- `JSR #off11` (R153). -/
  | jsr (off11 : BitVec 11)
  /-- `JSRR BaseR` (R154). -/
  | jsrr (base : Reg)
  /-- `LD DR,#off9` (42_load_store.md R171). -/
  | ld (dr : Reg) (off9 : BitVec 9)
  /-- `ST SR,#off9` (R172). -/
  | st (sr : Reg) (off9 : BitVec 9)
  /-- `LDI DR,#off9` (R173). -/
  | ldi (dr : Reg) (off9 : BitVec 9)
  /-- `STI SR,#off9` (R174). -/
  | sti (sr : Reg) (off9 : BitVec 9)
  /-- `LDR DR,BaseR,#off6` (R175). -/
  | ldr (dr base : Reg) (off6 : BitVec 6)
  /-- `STR SR,BaseR,#off6` (R176). -/
  | str (sr base : Reg) (off6 : BitVec 6)
  /-- `LEA DR,#off9` (R177). -/
  | lea (dr : Reg) (off9 : BitVec 9)
  /-- `TRAP` with a vector that names no service (43_trap_and_unused.md R200, R207). -/
  | trap (vect8 : BitVec 8)
  /-- `TRAP x20`, GETC (R201). -/
  | trapGetc
  /-- `TRAP x21`, OUT (R202). -/
  | trapOut
  /-- `TRAP x22`, PUTS (R203). -/
  | trapPuts
  /-- `TRAP x23`, IN (R204). -/
  | trapIn
  /-- `TRAP x24`, PUTSP (R205). -/
  | trapPutsp
  /-- `TRAP x25`, HALT (R206). -/
  | trapHalt
  /-- `RTI`, a no-operation (R208). -/
  | rti
  /-- The reserved class, a no-operation (R209). -/
  | reserved
deriving DecidableEq, Repr

/-- The opcode class an instruction form belongs to (R94, R96). -/
def Instr.opClass : Instr → OpClass
  | .addReg _ _ _ | .addImm _ _ _ => .add
  | .andReg _ _ _ | .andImm _ _ _ => .and
  | .not _ _ => .not
  | .br _ _ _ _ => .br
  | .jmp _ => .jmp
  | .jsr _ | .jsrr _ => .jsr
  | .ld _ _ => .ld
  | .st _ _ => .st
  | .ldi _ _ => .ldi
  | .sti _ _ => .sti
  | .ldr _ _ _ => .ldr
  | .str _ _ _ => .str
  | .lea _ _ => .lea
  | .trap _ | .trapGetc | .trapOut | .trapPuts | .trapIn | .trapPutsp | .trapHalt => .trap
  | .rti => .rti
  | .reserved => .reserved

end Sys2Proof
end

