-- ==== Sys2Proof/WellFormed.lean ====
section
/-! DEFINITION. Well-formed instructions. The widths of the fields are in their types, so ONE check remains: the generic
`trap` form holds a vector that names no service (30_encoding.md R102), because a vector that names one is that
service's own form. -/

namespace Sys2Proof

open Sys2Proof.Machine (params)

/-- The six assigned trap vectors (R102). -/
def serviceVectors : List (BitVec 8) :=
  [params.vGetc, params.vOut, params.vPuts, params.vIn, params.vPutsp, params.vHalt]

/-- A well-formed instruction: a `trap` whose vector is unrecognised; every other form is well formed. -/
def Instr.wellFormed : Instr → Bool
  | .trap v => !(serviceVectors.contains v)
  | .addReg _ _ _ | .addImm _ _ _ | .andReg _ _ _ | .andImm _ _ _ | .not _ _ | .br _ _ _ _ | .jmp _ | .jsr _ | .jsrr _
  | .ld _ _ | .st _ _ | .ldi _ _ | .sti _ _ | .ldr _ _ _ | .str _ _ _ | .lea _ _ | .trapGetc | .trapOut | .trapPuts
  | .trapIn | .trapPutsp | .trapHalt | .rti | .reserved => true

end Sys2Proof
end

