-- ==== Sys2Proof/Decode.lean ====
section
/-! DEFINITION. The decoder, a pure total function of the instruction word (30_encoding.md R92, R100), and the encoder.
Both take the opcode map as an argument (R95); the machine decodes with `opMap`. -/

namespace Sys2Proof

open Sys2Proof.Machine (params)

/-! The fields of R91. -/

/-- `op = ir[15:12]`. -/
def fieldOp (w : Word) : BitVec 4 := w.extractLsb' 12 4

/-- `dr = sr = ir[11:9]`. -/
def fieldDr (w : Word) : Reg := (w.extractLsb' 9 3).toFin

/-- `sr1 = base = ir[8:6]`. -/
def fieldSr1 (w : Word) : Reg := (w.extractLsb' 6 3).toFin

/-- `sr2 = ir[2:0]`. -/
def fieldSr2 (w : Word) : Reg := (w.extractLsb' 0 3).toFin

/-- `n = long = ir[11]`. -/
def fieldBit11 (w : Word) : Bool := w.getLsbD 11

/-- `z = ir[10]`. -/
def fieldBit10 (w : Word) : Bool := w.getLsbD 10

/-- `p = ir[9]`. -/
def fieldBit9 (w : Word) : Bool := w.getLsbD 9

/-- `mode = ir[5]`. -/
def fieldMode (w : Word) : Bool := w.getLsbD 5

/-- `imm5 = ir[4:0]`, not yet extended. -/
def fieldImm5 (w : Word) : BitVec 5 := w.extractLsb' 0 5

/-- `off6 = ir[5:0]`, not yet extended. -/
def fieldOff6 (w : Word) : BitVec 6 := w.extractLsb' 0 6

/-- `off9 = ir[8:0]`, not yet extended. -/
def fieldOff9 (w : Word) : BitVec 9 := w.extractLsb' 0 9

/-- `off11 = ir[10:0]`, not yet extended. -/
def fieldOff11 (w : Word) : BitVec 11 := w.extractLsb' 0 11

/-- `vect8 = ir[7:0]`. -/
def fieldVect8 (w : Word) : BitVec 8 := w.extractLsb' 0 8

/-- The instruction form a trap vector selects (R102, 43_trap_and_unused.md R200). -/
def decodeTrap (v : BitVec 8) : Instr :=
  if v = params.vGetc then .trapGetc
  else if v = params.vOut then .trapOut
  else if v = params.vPuts then .trapPuts
  else if v = params.vIn then .trapIn
  else if v = params.vPutsp then .trapPutsp
  else if v = params.vHalt then .trapHalt
  else .trap v

/-- R92's `decode`, for a given opcode map. The polarities of `mode` (R97) and `long` (R98) are PRESUMED
(notes/assumptions/2.md). -/
def decodeWith (m : OpMap) (w : Word) : Instr :=
  match m.classOf (fieldOp w) with
  | .add => if fieldMode w then .addImm (fieldDr w) (fieldSr1 w) (fieldImm5 w)
            else .addReg (fieldDr w) (fieldSr1 w) (fieldSr2 w)
  | .and => if fieldMode w then .andImm (fieldDr w) (fieldSr1 w) (fieldImm5 w)
            else .andReg (fieldDr w) (fieldSr1 w) (fieldSr2 w)
  | .not => .not (fieldDr w) (fieldSr1 w)
  | .br => .br (fieldBit11 w) (fieldBit10 w) (fieldBit9 w) (fieldOff9 w)
  | .jmp => .jmp (fieldSr1 w)
  | .jsr => if fieldBit11 w then .jsr (fieldOff11 w) else .jsrr (fieldSr1 w)
  | .ld => .ld (fieldDr w) (fieldOff9 w)
  | .st => .st (fieldDr w) (fieldOff9 w)
  | .ldi => .ldi (fieldDr w) (fieldOff9 w)
  | .sti => .sti (fieldDr w) (fieldOff9 w)
  | .ldr => .ldr (fieldDr w) (fieldSr1 w) (fieldOff6 w)
  | .str => .str (fieldDr w) (fieldSr1 w) (fieldOff6 w)
  | .lea => .lea (fieldDr w) (fieldOff9 w)
  | .trap => decodeTrap (fieldVect8 w)
  | .rti => .rti
  | .reserved => .reserved

/-- The machine's decoder (R92, R96). -/
def decode (w : Word) : Instr := decodeWith opMap w

/-- Why the byte-level decoder rejects. Every 16-bit word decodes (R100), so only a missing byte is left. -/
inductive DecodeError where
  /-- Fewer than the two bytes of one instruction word (R90). -/
  | truncated
deriving DecidableEq, Repr

/-- A word from its two bytes, bits 15:8 first, as an image stores it (70_reset_and_hazards.md R273). -/
def wordOfBytes (hi lo : Byte) : Word := hi ++ lo

/-- The decoder on stored bytes: the first instruction and the bytes after it. -/
def decodeBytes : List Byte → Except DecodeError (Instr × List Byte)
  | hi :: lo :: rest => .ok (decode (wordOfBytes hi lo), rest)
  | _ => .error .truncated

/-- The instruction read from a row's bits: `w`'s low `nbits` bits as one instruction word, laid out as two bytes and
given to the decoder. No instruction is longer than one word (R90), so a longer row is none. -/
def decodeTableWord (nbits w : Nat) : Option Instr :=
  if nbits ≤ 16 then
    let bits : Word := BitVec.ofNat 16 (w % 2 ^ nbits)
    match decodeBytes [bits.extractLsb' 8 8, bits.extractLsb' 0 8] with
    | .ok (i, _) => some i
    | .error _ => none
  else none

/-! The encoder. -/

/-- A register's 3-bit field. -/
def regBits (r : Reg) : BitVec 3 := BitVec.ofFin r

/-- One test or mode bit. -/
def bit (b : Bool) : BitVec 1 := BitVec.ofBool b

/-- The word of a TRAP with vector `v`, bits 11:8 zero (R107). -/
def trapWord (m : OpMap) (v : BitVec 8) : Word := m.codeOf .trap ++ 0#4 ++ v

/-- The word of an instruction (R94), with R107's values for the don't-care bits: zeros, and ones in NOT bits 5:0. -/
def encodeWith (m : OpMap) : Instr → Word
  | .addReg dr sr1 sr2 => m.codeOf .add ++ regBits dr ++ regBits sr1 ++ 0#1 ++ 0#2 ++ regBits sr2
  | .addImm dr sr1 imm5 => m.codeOf .add ++ regBits dr ++ regBits sr1 ++ 1#1 ++ imm5
  | .andReg dr sr1 sr2 => m.codeOf .and ++ regBits dr ++ regBits sr1 ++ 0#1 ++ 0#2 ++ regBits sr2
  | .andImm dr sr1 imm5 => m.codeOf .and ++ regBits dr ++ regBits sr1 ++ 1#1 ++ imm5
  | .not dr sr1 => m.codeOf .not ++ regBits dr ++ regBits sr1 ++ 0b111111#6
  | .br n z p off9 => m.codeOf .br ++ bit n ++ bit z ++ bit p ++ off9
  | .jmp base => m.codeOf .jmp ++ 0#3 ++ regBits base ++ 0#6
  | .jsr off11 => m.codeOf .jsr ++ 1#1 ++ off11
  | .jsrr base => m.codeOf .jsr ++ 0#1 ++ 0#2 ++ regBits base ++ 0#6
  | .ld dr off9 => m.codeOf .ld ++ regBits dr ++ off9
  | .st sr off9 => m.codeOf .st ++ regBits sr ++ off9
  | .ldi dr off9 => m.codeOf .ldi ++ regBits dr ++ off9
  | .sti sr off9 => m.codeOf .sti ++ regBits sr ++ off9
  | .ldr dr base off6 => m.codeOf .ldr ++ regBits dr ++ regBits base ++ off6
  | .str sr base off6 => m.codeOf .str ++ regBits sr ++ regBits base ++ off6
  | .lea dr off9 => m.codeOf .lea ++ regBits dr ++ off9
  | .trap v => trapWord m v
  | .trapGetc => trapWord m params.vGetc
  | .trapOut => trapWord m params.vOut
  | .trapPuts => trapWord m params.vPuts
  | .trapIn => trapWord m params.vIn
  | .trapPutsp => trapWord m params.vPutsp
  | .trapHalt => trapWord m params.vHalt
  | .rti => m.codeOf .rti ++ 0#12
  | .reserved => m.codeOf .reserved ++ 0#12

/-- The encoder under the machine's opcode map. -/
def encode (i : Instr) : Word := encodeWith opMap i

/-- The bits of an instruction's word that are read by something: the complement of R99's don't-care bits. -/
def careMask : Instr → Word
  | .addReg _ _ _ | .andReg _ _ _ => 0xFFE7#16
  | .not _ _ => 0xFFC0#16
  | .jmp _ => 0xF1C0#16
  | .jsrr _ => 0xF9C0#16
  | .trap _ | .trapGetc | .trapOut | .trapPuts | .trapIn | .trapPutsp | .trapHalt => 0xF0FF#16
  | .rti | .reserved => 0xF000#16
  | .addImm _ _ _ | .andImm _ _ _ | .br _ _ _ _ | .jsr _ | .ld _ _ | .st _ _ | .ldi _ _ | .sti _ _ | .ldr _ _ _
  | .str _ _ _ | .lea _ _ => 0xFFFF#16

end Sys2Proof
end

