-- ==== Sys2Proof/Machine/State.lean ====
section
/-! DEFINITION. The state of the machine as plain data (10_state.md), the reasons a step can stop, and the state after
reset (10_state.md R41, 70_reset_and_hazards.md R270, R271). -/

namespace Sys2Proof.Machine

/-- The condition code: exactly one of three flags (R27). R29 allows this enumeration; `ConditionCode.bits` in Flags.lean
gives its one-hot form. -/
inductive ConditionCode where
  /-- NEGATIVE. -/
  | N
  /-- ZERO. -/
  | Z
  /-- POSITIVE. -/
  | P
deriving DecidableEq, Repr

/-- The run state (R30). HALTED and FAULTED are terminal. -/
inductive RunState where
  | running | halted | faulted
deriving DecidableEq, Repr

/-- The name `r` of `raise Fault(r)` while instructions run (60_exceptions.md R242). `PcOutOfRange` cannot occur (R243)
and the image errors belong to reset (`ImageError` in Image.lean), so one name is left. -/
inductive FaultCause where
  /-- `UnknownTrapVector`. -/
  | unknownTrapVector
deriving DecidableEq, Repr

/-- The kinds of notice (R39). They are opaque events without text. -/
inductive Notice where
  /-- `HaltNotice`, from HALT. -/
  | haltNotice
  /-- `UnknownTrap(v)`, from an unrecognised trap vector. -/
  | unknownTrap (v : BitVec 8)
  /-- `FaultDiag(r)`, from `raise Fault(r)`. -/
  | faultDiag (r : FaultCause)
deriving DecidableEq, Repr

/-- The memory array as its nonzero bytes, keys strictly rising: the word at address `a` lies at the keys `2a`
(bits 15:8) and `2a + 1` (bits 7:0). The machine names words only, so the order of the two halves cannot be observed
(20_memory.md R51). DESIGN CHOICE (notes/assumptions/22.md); safe. -/
abbrev Memory := List Host.Cell

/-- The whole state: what 10_state.md gives the machine, and the host's three sequences (R37, R38, R39). -/
structure State where
  /-- `R0` .. `R7` (R20). -/
  regs : Vector Word 8
  /-- The program counter (R24). -/
  pc : Word
  /-- The condition code (R27). -/
  cc : ConditionCode
  /-- The run state (R30). -/
  run : RunState
  /-- The memory array with KBSR and KBDR in it (R31, R32, R33). -/
  mem : Memory
  /-- The host's pending input bytes, head first (R37). -/
  kbd : List Byte
  /-- The console output, oldest first (R38). -/
  out : List Byte
  /-- The notices, oldest first (R39). -/
  notes : List Notice
deriving DecidableEq, Repr

/-- Why no step is taken. None of these is an instruction's: an instruction that raises the spec's `Fault(r)` takes it, a
next state with `run = FAULTED` (`raiseFault` in Ops.lean). -/
inductive Fault where
  /-- Raised by `step` when `run = HALTED`: a step exists only in RUNNING (R30). Safe: the machine takes no step. -/
  | halted
  /-- Raised by `step` when `run = FAULTED` (R30). Safe: the machine takes no step. -/
  | faulted
  /-- Raised by a PUTS or PUTSP scan that has read memory round `kbd.length + 1` times without a zero word, the hang of
  43_trap_and_unused.md R203. Safe, and never reached: every scan reads zero by then (notes/assumptions/23.md). -/
  | scanHang
deriving DecidableEq, Repr

/-- Why an instruction has no meaning. -/
inductive Refusal where
  /-- Raised by an arm of `exec` whose instruction is not modelled. Safe. No arm raises it. -/
  | notModelled (mnemonic : String)
  /-- Raised by PUTS on a string word above `0x00FF` under `PUTS_WIDE = refuse` (R203). Safe. Not by `step`,
  whose `options` take `low_byte`. -/
  | putsWideWord
deriving DecidableEq, Repr

/-- The machine right after reset, with no image loaded (R41, R270, R271): registers zero, `pc = START_PC`, `cc = Z`,
RUNNING, memory zero, `out` and `notes` empty. DESIGN CHOICE (notes/assumptions/20.md): the host has queued no key yet;
unsafe. `boot` in Image.lean is the reset with images and any queue. -/
def State.reset : State where
  regs := Vector.replicate 8 0#16
  pc := params.startPc
  cc := .Z
  run := .running
  mem := []
  kbd := []
  out := []
  notes := []

end Sys2Proof.Machine
end

