-- ==== Sys2Proof/Machine/Flags.lean ====
section
/-! DEFINITION. The condition code: how a value is classified, its one-hot form, and the test of BR
(10_state.md R27, R29; 41_control.md R151). -/

namespace Sys2Proof.Machine

/-- R27: Z if the value is 0, N if bit 15 is set, P otherwise. -/
def classify (v : Word) : ConditionCode :=
  if v = 0 then .Z else if v.getLsbD 15 then .N else .P

/-- R29: `cc[2] = N`, `cc[1] = Z`, `cc[0] = P`. -/
def ConditionCode.bits : ConditionCode → BitVec 3
  | .N => 0b100#3
  | .Z => 0b010#3
  | .P => 0b001#3

/-- R151: whether a BR with test bits n, z, p is taken. -/
def branchTaken (n z p : Bool) (cc : ConditionCode) : Bool :=
  (n && cc == .N) || (z && cc == .Z) || (p && cc == .P)

end Sys2Proof.Machine
end

