-- ==== Sys2Proof/Machine/Operands.lean ====
section
/-! DEFINITION. Operand forms: sign extension, the second operand of ADD and AND, and effective addresses
(00_scope.md R11; 30_encoding.md R93; 42_load_store.md R170). -/

namespace Sys2Proof.Machine

/-- `x[i]`: read of general register `Ri` (00_scope.md R12). -/
def State.reg (s : State) (r : Reg) : Word := s.regs.get r

/-- `sext_N(v)`: a field read as two's complement (00_scope.md R11). -/
def sext {n : Nat} (v : BitVec n) : Word := v.signExtend 16

/-- `zext_N(v)` (R11). -/
def zext {n : Nat} (v : BitVec n) : Word := v.setWidth 16

/-- `pc + sext_N(off)`, with `pc` already incremented: the target of BR and JSR, and addressing mode (1) of R170. -/
def pcRelative {n : Nat} (off : BitVec n) (s : State) : Word := s.pc + sext off

/-- `x[base] + sext_6(off6)`: addressing mode (3) of R170. -/
def baseOffset (base : Reg) (off6 : BitVec 6) (s : State) : Word := s.reg base + sext off6

end Sys2Proof.Machine
end

