-- ==== Sys2Proof/Machine/Ops.lean ====
section
/-! DEFINITION. The named operations over registers, memory and the host's ports, the fetch, and the entry of traps and
faults: the primitives of 00_scope.md R12, each used by every instruction that needs it. -/

namespace Sys2Proof.Machine

/-! Writes of one field of the state. -/

/-- `x[i] <- v` (10_state.md R23). -/
def State.setReg (s : State) (r : Reg) (v : Word) : State := { s with regs := s.regs.set r.val v r.isLt }

/-- `pc <- t` (R24). -/
def State.setPc (s : State) (t : Word) : State := { s with pc := t }

/-- `cc <- c`. -/
def State.setCc (s : State) (c : ConditionCode) : State := { s with cc := c }

/-- `run <- r` (R30). -/
def State.setRun (s : State) (r : RunState) : State := { s with run := r }

/-- The memory array replaced. -/
def State.setMem (s : State) (m : Memory) : State := { s with mem := m }

/-- The keyboard queue replaced. -/
def State.setKbd (s : State) (k : List Byte) : State := { s with kbd := k }

/-- `Out(b)` for each byte in order (R38). -/
def State.emit (s : State) (bs : List Byte) : State := { s with out := s.out ++ bs }

/-- `Notice(k)` (R39). -/
def State.notice (s : State) (k : Notice) : State := { s with notes := s.notes ++ [k] }

/-- `setcc(i)` (R27). -/
def State.setccFrom (s : State) (r : Reg) : State := s.setCc (classify (s.reg r))

/-- The write of a designated destination register: `x[dr] <- v`, then `setcc(dr)` (R28). -/
def State.writeDest (s : State) (dr : Reg) (v : Word) : State := (s.setReg dr v).setccFrom dr

/-! The memory array. -/

/-- One past the largest byte key: two bytes for each of the 65536 words (10_state.md R31). -/
def memoryKeys : Nat := 131072

/-- What an unlisted key reads as: zero (R41, 70_reset_and_hazards.md R271). -/
def unlistedByte : Byte := 0#8

/-- The byte at a key. -/
def Memory.readByte : Memory → Nat → Byte
  | [], _ => unlistedByte
  | c :: m, k => if c.1 = k then c.2 else Memory.readByte m k

/-- The cell `(k, v)` put in its place among rising keys. -/
def Memory.insertCell (k : Nat) (v : Byte) : Memory → Memory
  | [] => [(k, v)]
  | c :: m => if k < c.1 then (k, v) :: c :: m else c :: Memory.insertCell k v m

/-- The byte at a key replaced; a byte that reads as an unlisted one is not listed. -/
def Memory.writeByte (m : Memory) (k : Nat) (v : Byte) : Memory :=
  if v = unlistedByte then m.filter (fun c => c.1 != k)
  else Memory.insertCell k v (m.filter (fun c => c.1 != k))

/-- Keys strictly rising. -/
def Memory.rising : Memory → Bool
  | [] => true
  | c :: m => m.all (fun d => decide (c.1 < d.1)) && Memory.rising m

/-- The canonical form: keys strictly rising and inside the array, no cell that reads as an unlisted one. -/
def Memory.wf (m : Memory) : Bool :=
  Memory.rising m && m.all (fun c => decide (c.1 < memoryKeys) && (c.2 != unlistedByte))

/-- The key of bits 15:8 of the word at an address. -/
def highKey (a : Word) : Nat := 2 * a.toNat

/-- The key of bits 7:0 of the word at an address. -/
def lowKey (a : Word) : Nat := 2 * a.toNat + 1

/-- `mem[a]`: the backing word (00_scope.md R12). -/
def Memory.readWord (m : Memory) (a : Word) : Word := m.readByte (highKey a) ++ m.readByte (lowKey a)

/-- `mem[a] <- v`. -/
def Memory.writeWord (m : Memory) (a v : Word) : Memory :=
  (m.writeByte (highKey a) (v.extractLsb' 8 8)).writeByte (lowKey a) (v.extractLsb' 0 8)

/-! The keyboard port and the bus (10_state.md R37; 20_memory.md R52, R53, R56). -/

/-- `KbdTake()` when `KbdReady()`: the head of the queue and the state without it. None when the queue is empty. -/
def State.kbdTake (s : State) : Option (Byte × State) :=
  match s.kbd with
  | [] => none
  | b :: rest => some (b, s.setKbd rest)

/-- `Poll()` (R53). -/
def State.poll (s : State) : State :=
  match s.kbdTake with
  | none => s.setMem (s.mem.writeWord params.kbsrAddr 0)
  | some (b, s') =>
    s'.setMem ((s'.mem.writeWord params.kbsrAddr params.kbsrReady).writeWord params.kbdrAddr (zext b))

/-- The side effect of a bus read of an address: a poll at the status address, nothing elsewhere (R52). -/
def readEffect (a : Word) (s : State) : State := if a = params.kbsrAddr then s.poll else s

/-- `MemRead(a, 1)`: the word read and the state after (R52). -/
def memRead (a : Word) (s : State) : Word × State := ((readEffect a s).mem.readWord a, readEffect a s)

/-- `MemWrite(a, 1, v)` (R56): a plain store at every address (R57). -/
def memWrite (a v : Word) (s : State) : State := s.setMem (s.mem.writeWord a v)

/-- The start of every step: `ir <- MemRead(pc, 1); pc <- pc + 1` (10_state.md R25). -/
def fetch (s : State) : Word × State := ((memRead s.pc s).1, (memRead s.pc s).2.setPc (s.pc + 1))

/-! Traps, faults and the held step (60_exceptions.md R241, R248, R249; 00_scope.md R15). -/

/-- The link register, R7 (41_control.md R155). -/
abbrev linkReg : Reg := 7

/-- The argument and result register of the trap services, R0 (10_state.md R21). -/
abbrev serviceReg : Reg := 0

/-- The link: `x[7] <- pc`, no flag written. JSR, JSRR and every TRAP begin with it (R28, R153, R200). -/
def State.link (s : State) : State := s.setReg linkReg s.pc

/-- Trap entry (R248): it saves the address of the next instruction in R7 and nothing else; no mode, mask, stack or `pc`
changes. -/
def trapEntry (s : State) : State := s.link

/-- Trap return (R249): a service returns by ending, and the next fetch is at `pc`. -/
def trapReturn (s : State) : Host.Outcome State Fault Refusal := .next s

/-- `raise Fault(r)` (R241): `run <- FAULTED`, the diagnostic, the end of the step. Nothing is saved or vectored. -/
def raiseFault (r : FaultCause) (s : State) : Host.Outcome State Fault Refusal :=
  .next ((s.setRun .faulted).notice (.faultDiag r))

/-- A held step (00_scope.md R15, 43_trap_and_unused.md R201): nothing changes and `pc` is still at the TRAP, so the
fetch's increment is taken back. DESIGN CHOICE (notes/assumptions/11.md); safe. -/
def hold (s : State) : Host.Outcome State Fault Refusal := .next (s.setPc (s.pc - 1))

/-- The host appends bytes to the tail of the queue, between two steps (10_state.md R37). -/
def State.hostAppend (s : State) (bs : List Byte) : State := s.setKbd (s.kbd ++ bs)

end Sys2Proof.Machine
end

