-- ==== Sys2Proof/Machine/Control.lean ====
section
/-! DEFINITION. BR, JMP, JSR, JSRR (41_control.md R150 to R155). `pc` is already incremented by the fetch. -/

namespace Sys2Proof.Machine

/-- BR: `if taken then pc <- pc + sext_9(off9)` (R151). -/
def execBr (n z p : Bool) (off9 : BitVec 9) (s : State) : Host.Outcome State Fault Refusal :=
  .next (if branchTaken n z p s.cc then s.setPc (pcRelative off9 s) else s)

/-- JMP: `pc <- x[base]` (R152). -/
def execJmp (base : Reg) (s : State) : Host.Outcome State Fault Refusal :=
  .next (s.setPc (s.reg base))

/-- JSR: the link, then `pc <- pc + sext_11(off11)` (R153). -/
def execJsr (off11 : BitVec 11) (s : State) : Host.Outcome State Fault Refusal :=
  .next (s.link.setPc (pcRelative off11 s))

/-- JSRR: the link is written first and the base read after it, so `JSRR R7` goes on at the next instruction (R154).
DESIGN CHOICE (notes/assumptions/6.md): the order is the spec's reading; unsafe. -/
def execJsrr (base : Reg) (s : State) : Host.Outcome State Fault Refusal :=
  .next (s.link.setPc (s.link.reg base))

end Sys2Proof.Machine
end

