-- ==== Sys2Proof/Machine/LoadStore.lean ====
section
/-! DEFINITION. LD, ST, LDI, STI, LDR, STR, LEA (42_load_store.md R170 to R177). Every read is a bus read. -/

namespace Sys2Proof.Machine

/-- A load of the word at `a` into `dr`, with its flags (R171). -/
def loadFrom (dr : Reg) (a : Word) (s : State) : State := (memRead a s).2.writeDest dr (memRead a s).1

/-- LD: `x[dr] <- MemRead(pc + sext_9(off9)); setcc(dr)` (R171). -/
def execLd (dr : Reg) (off9 : BitVec 9) (s : State) : Host.Outcome State Fault Refusal :=
  .next (loadFrom dr (pcRelative off9 s) s)

/-- ST: `MemWrite(pc + sext_9(off9), x[sr])` (R172). -/
def execSt (sr : Reg) (off9 : BitVec 9) (s : State) : Host.Outcome State Fault Refusal :=
  .next (memWrite (pcRelative off9 s) (s.reg sr) s)

/-- LDI: the pointer read, then the data read (R173). -/
def execLdi (dr : Reg) (off9 : BitVec 9) (s : State) : Host.Outcome State Fault Refusal :=
  .next (loadFrom dr (memRead (pcRelative off9 s) s).1 (memRead (pcRelative off9 s) s).2)

/-- STI: the pointer read, then the write (R174). -/
def execSti (sr : Reg) (off9 : BitVec 9) (s : State) : Host.Outcome State Fault Refusal :=
  .next (memWrite (memRead (pcRelative off9 s) s).1 (s.reg sr) (memRead (pcRelative off9 s) s).2)

/-- LDR: `x[dr] <- MemRead(x[base] + sext_6(off6)); setcc(dr)` (R175). -/
def execLdr (dr base : Reg) (off6 : BitVec 6) (s : State) : Host.Outcome State Fault Refusal :=
  .next (loadFrom dr (baseOffset base off6 s) s)

/-- STR: `MemWrite(x[base] + sext_6(off6), x[sr])` (R176). -/
def execStr (sr base : Reg) (off6 : BitVec 6) (s : State) : Host.Outcome State Fault Refusal :=
  .next (memWrite (baseOffset base off6 s) (s.reg sr) s)

/-- LEA: `x[dr] <- pc + sext_9(off9); setcc(dr)` (R177). -/
def execLea (dr : Reg) (off9 : BitVec 9) (s : State) : Host.Outcome State Fault Refusal :=
  .next (s.writeDest dr (pcRelative off9 s))

end Sys2Proof.Machine
end

