-- ==== Sys2Proof/Machine/Operate.lean ====
section
/-! DEFINITION. ADD, AND, NOT (40_operate.md R130 to R134). The sources are read before the destination is written. -/

namespace Sys2Proof.Machine

/-- ADD, register form: `x[dr] <- x[sr1] + x[sr2]; setcc(dr)` (R131). -/
def execAddReg (dr sr1 sr2 : Reg) (s : State) : Host.Outcome State Fault Refusal :=
  .next (s.writeDest dr (s.reg sr1 + s.reg sr2))

/-- ADD, immediate form: `x[dr] <- x[sr1] + sext_5(imm5); setcc(dr)` (R131). -/
def execAddImm (dr sr1 : Reg) (imm5 : BitVec 5) (s : State) : Host.Outcome State Fault Refusal :=
  .next (s.writeDest dr (s.reg sr1 + sext imm5))

/-- AND, register form (R132). -/
def execAndReg (dr sr1 sr2 : Reg) (s : State) : Host.Outcome State Fault Refusal :=
  .next (s.writeDest dr (s.reg sr1 &&& s.reg sr2))

/-- AND, immediate form, the immediate extended before the conjunction (R132). -/
def execAndImm (dr sr1 : Reg) (imm5 : BitVec 5) (s : State) : Host.Outcome State Fault Refusal :=
  .next (s.writeDest dr (s.reg sr1 &&& sext imm5))

/-- NOT (R133). -/
def execNot (dr sr1 : Reg) (s : State) : Host.Outcome State Fault Refusal :=
  .next (s.writeDest dr (~~~(s.reg sr1)))

end Sys2Proof.Machine
end

