-- ==== Sys2Proof/Machine/Trap.lean ====
section
/-! DEFINITION. TRAP and its services (43_trap_and_unused.md R200 to R207, R210). Each begins with trap entry and ends
with trap return; the host carries the service out inside the step. -/

namespace Sys2Proof.Machine

/-- GETC and IN: held while `kbd` is empty, with nothing written; otherwise the link, `x[0] <- zext_8(KbdTake())`,
`setcc(0)`, and under `IN_ECHO = echo` the byte to the console (R201, R204). -/
def readCharService (mode : InEcho) (s : State) : Host.Outcome State Fault Refusal :=
  match (trapEntry s).kbdTake with
  | none => hold s
  | some (b, s') =>
    match mode with
    | .none => trapReturn (s'.writeDest serviceReg (zext b))
    | .echo => trapReturn ((s'.writeDest serviceReg (zext b)).emit [b])

/-- GETC (R201). -/
def execTrapGetc (s : State) : Host.Outcome State Fault Refusal := readCharService .none s

/-- OUT: the low byte of R0 to the console (R202). -/
def execTrapOut (s : State) : Host.Outcome State Fault Refusal :=
  trapReturn ((trapEntry s).emit [((trapEntry s).reg serviceReg).extractLsb' 0 8])

/-- The string scan of PUTS and PUTSP: read a word at `a`; stop at a zero word; else write the word's bytes and go on at
`a + 1` (R203, R205). `chars` says which bytes a nonzero word writes, none meaning that the step has no meaning. The first
argument bounds the reads. -/
def scanString (chars : Word → Option (List Byte)) : Nat → Word → State → Host.Outcome State Fault Refusal
  | 0, _, _ => .fault .scanHang
  | reads + 1, a, s =>
    if (memRead a s).1 = 0 then trapReturn (memRead a s).2
    else match chars (memRead a s).1 with
      | none => .refused .putsWideWord
      | some bs => scanString chars reads (a + 1) ((memRead a s).2.emit bs)

/-- A bound no scan reaches: between two reads of the status address lie at most 65535 other reads, each read there takes a
byte of `kbd`, and with `kbd` empty it returns zero (notes/assumptions/23.md). -/
def scanBound (s : State) : Nat := 65536 * (s.kbd.length + 1)

/-- PUTS's character of a nonzero word: the word as one byte up to `0x00FF`, and what `PUTS_WIDE` says above (R203). -/
def putsEmit (wide : PutsWide) (w : Word) : Option (List Byte) :=
  if w.toNat ≤ 0xFF then some [w.extractLsb' 0 8]
  else match wide with
    | .refuse => none
    | .lowByte => some [w.extractLsb' 0 8]

/-- PUTSP's bytes of a nonzero word: the low byte always, then the high byte if it is not zero (R205). -/
def putspEmit (w : Word) : Option (List Byte) :=
  if w.extractLsb' 8 8 = 0#8 then some [w.extractLsb' 0 8] else some [w.extractLsb' 0 8, w.extractLsb' 8 8]

/-- PUTS under a given `PUTS_WIDE` (R203). -/
def putsService (wide : PutsWide) (s : State) : Host.Outcome State Fault Refusal :=
  scanString (putsEmit wide) (scanBound s) ((trapEntry s).reg serviceReg) (trapEntry s)

/-- PUTS (R203). -/
def execTrapPuts (s : State) : Host.Outcome State Fault Refusal := putsService options.putsWide s

/-- IN: exactly GETC, and the echo that `IN_ECHO` says (R204). -/
def execTrapIn (s : State) : Host.Outcome State Fault Refusal := readCharService options.inEcho s

/-- PUTSP (R205). -/
def execTrapPutsp (s : State) : Host.Outcome State Fault Refusal :=
  scanString putspEmit (scanBound s) ((trapEntry s).reg serviceReg) (trapEntry s)

/-- HALT: the notice, then `run <- HALTED` (R206). -/
def execTrapHalt (s : State) : Host.Outcome State Fault Refusal :=
  trapReturn (((trapEntry s).notice .haltNotice).setRun .halted)

/-- An unrecognised vector: the link, the notice, and the fault if `UNKNOWN_TRAP_FATAL` (R207). -/
def unknownVector (fatal : Bool) (v : BitVec 8) (s : State) : Host.Outcome State Fault Refusal :=
  if fatal then raiseFault .unknownTrapVector ((trapEntry s).notice (.unknownTrap v))
  else trapReturn ((trapEntry s).notice (.unknownTrap v))

/-- TRAP as a class: R200's `case` on the vector, under given values of the parameters of R7. -/
def trapWith (o : Options) (v : BitVec 8) (s : State) : Host.Outcome State Fault Refusal :=
  if v = params.vGetc then execTrapGetc s
  else if v = params.vOut then execTrapOut s
  else if v = params.vPuts then putsService o.putsWide s
  else if v = params.vIn then readCharService o.inEcho s
  else if v = params.vPutsp then execTrapPutsp s
  else if v = params.vHalt then execTrapHalt s
  else unknownVector o.unknownTrapFatal v s

/-- TRAP with a vector that names no service (R207). In a well-formed `trap v` no case of `trapWith` but the last matches. -/
def execTrap (v : BitVec 8) (s : State) : Host.Outcome State Fault Refusal := trapWith options v s

end Sys2Proof.Machine
end

