-- ==== Sys2Proof/Machine/Unused.lean ====
section
/-! DEFINITION. RTI and the reserved class, no-operations for every value of bits 11:0 (43_trap_and_unused.md R208, R209;
30_encoding.md R101): nothing after the fetch and the increment of `pc`, no notice, no fault. -/

namespace Sys2Proof.Machine

/-- RTI restores nothing and raises nothing (R208). -/
def execRti (s : State) : Host.Outcome State Fault Refusal := .next s

/-- The reserved class (R209). -/
def execReserved (s : State) : Host.Outcome State Fault Refusal := .next s

end Sys2Proof.Machine
end

