-- ==== Sys2Proof/Machine/Step.lean ====
section
/-! DEFINITION. One step of the machine (00_scope.md R8; 10_state.md R25, R30). -/

namespace Sys2Proof.Machine

/-- One whole instruction: fetch, increment, decode, execute. A step exists only in RUNNING (R30). -/
def step (s : State) : Host.Outcome State Fault Refusal :=
  match s.run with
  | .running => exec (decode (fetch s).1) (fetch s).2
  | .halted => .fault .halted
  | .faulted => .fault .faulted

/-- Where `withFetchWord` places the word: at `pc`, but at `START_PC` when `pc` is the status address, whose fetch returns
the poll's result and never a stored word (20_memory.md R52; notes/assumptions/27.md). -/
def State.fetchSlot (s : State) : Word := if s.pc = params.kbsrAddr then params.startPc else s.pc

/-- `s` with an instruction's bits stored where the next step fetches, and RUNNING (notes/assumptions/27.md). It stands for
a program loaded from outside the machine. -/
def State.withFetchWord (s : State) (nbits w : Nat) : State :=
  ((s.setMem (s.mem.writeWord s.fetchSlot (BitVec.ofNat 16 (w % 2 ^ nbits)))).setPc s.fetchSlot).setRun .running

end Sys2Proof.Machine
end

