-- ==== Sys2Proof/Machine/Configured.lean ====
section
/-! DEFINITION. The machine as a function of the open parameters (00_scope.md R7, "each a named argument of the model").
`exec` and `step` are these at `options` (Laws/Ops.lean, `execWith_options`, `stepWith_options`). -/

namespace Sys2Proof.Machine

/-- The meaning of an instruction under given parameters. They reach three forms: an unrecognised vector
(`UNKNOWN_TRAP_FATAL`, R207), PUTS (`PUTS_WIDE`, R203) and IN (`IN_ECHO`, R204). -/
def execWith (o : Options) (i : Instr) (s : State) : Host.Outcome State Fault Refusal :=
  match i with
  | .trap v => trapWith o v s
  | .trapPuts => putsService o.putsWide s
  | .trapIn => readCharService o.inEcho s
  | .addReg _ _ _ | .addImm _ _ _ | .andReg _ _ _ | .andImm _ _ _ | .not _ _ | .br _ _ _ _ | .jmp _ | .jsr _ | .jsrr _
  | .ld _ _ | .st _ _ | .ldi _ _ | .sti _ _ | .ldr _ _ _ | .str _ _ _ | .lea _ _ | .trapGetc | .trapOut | .trapPutsp
  | .trapHalt | .rti | .reserved => exec i s

/-- One step under given parameters (R8; 10_state.md R25, R30); `OPMAP` is the decoder's (30_encoding.md R95). -/
def stepWith (o : Options) (s : State) : Host.Outcome State Fault Refusal :=
  match s.run with
  | .running => execWith o (decodeWith o.opMap (fetch s).1) (fetch s).2
  | .halted => .fault .halted
  | .faulted => .fault .faulted

end Sys2Proof.Machine
end

