-- ==== Sys2Proof/Machine/HostMoves.lean ====
section
/-! DEFINITION. The host's moves between steps, and how a run ends (10_state.md R37; 60_exceptions.md R246, R257). -/

namespace Sys2Proof.Machine

/-- One move of a run: a step of the machine, or a move of the host between steps. -/
inductive Move where
  /-- The machine takes a step, if one exists. -/
  | step
  /-- The host appends a byte to the tail of `kbd` (R37). -/
  | append (b : Byte)
  /-- The host ends the run; enabled in RUNNING, also while a GETC or IN is held (R246). -/
  | abort
deriving DecidableEq, Repr

/-- Where a run stands after some moves. -/
inductive Played where
  /-- The machine is at `s`; the run has ended if `s.run` is not RUNNING (R257). -/
  | reached (s : State)
  /-- The host aborted the run: there is no final state (R246). -/
  | aborted
  /-- A string scan without an end, the hang of R203. -/
  | hung
  /-- The instruction has no meaning in the model. -/
  | refused (r : Refusal)
deriving DecidableEq, Repr

/-- The moves played in order, under given parameters (00_scope.md R7). In a terminal state no step is taken and the state
stays (R30). -/
def playWith (o : Options) : List Move → State → Played
  | [], s => .reached s
  | .step :: rest, s =>
    match stepWith o s with
    | .next t => playWith o rest t
    | .fault .halted => playWith o rest s
    | .fault .faulted => playWith o rest s
    | .fault .scanHang => .hung
    | .refused r => .refused r
  | .append b :: rest, s => playWith o rest (s.hostAppend [b])
  | .abort :: rest, s =>
    match s.run with
    | .running => .aborted
    | .halted => playWith o rest s
    | .faulted => playWith o rest s

/-- The moves played by the machine at `options`. -/
def play (moves : List Move) (s : State) : Played := playWith options moves s

/-- The bytes the host appends in some moves, in order. -/
def appendedBytes : List Move → List Byte
  | [] => []
  | .append b :: rest => b :: appendedBytes rest
  | .step :: rest | .abort :: rest => appendedBytes rest

/-- The three ends of a run (R257). -/
inductive RunEnd where
  /-- The HALT service ran: the only normal end. -/
  | halted
  /-- `raise Fault` ran. -/
  | faulted
  /-- The host aborted. -/
  | aborted
deriving DecidableEq, Repr

/-- Which end, if any, has been reached (R257). A held or looping machine has reached none. -/
def Played.ending : Played → Option RunEnd
  | .reached s => match s.run with
    | .running => none
    | .halted => some .halted
    | .faulted => some .faulted
  | .aborted => some .aborted
  | .hung => none
  | .refused _ => none

end Sys2Proof.Machine
end

