-- ==== Sys2Proof/Machine/Image.lean ====
section
/-! DEFINITION. Program images and the reset that loads them (70_reset_and_hazards.md R270 to R275). -/

namespace Sys2Proof.Machine

/-- A program image: its origin and its words (R272). -/
structure Image where
  origin : Word
  words : List Word
deriving DecidableEq, Repr

/-- Why a launch gives no run (60_exceptions.md R242, R274, R275). Found before the first instruction. -/
inductive ImageError where
  /-- `ImageTooLarge`: more words than `65536 - origin` (R274). -/
  | imageTooLarge
  /-- `ImageOddLength`: an odd byte count (R275). -/
  | imageOddLength
  /-- Fewer than the two bytes of an origin (R275). -/
  | noOrigin
  /-- No image at all: `IMAGES` holds at least one (R272). -/
  | noImage
deriving DecidableEq, Repr

/-- Big-endian words from bytes; none if a byte is left over (R273, R275). -/
def wordsOfBytes : List Byte → Option (List Word)
  | [] => some []
  | [_] => none
  | hi :: lo :: rest => (wordsOfBytes rest).map (wordOfBytes hi lo :: ·)

/-- An image from its bytes: the origin word, then the words (R273), under the conditions of R274 and R275. -/
def parseImage (bytes : List Byte) : Except ImageError Image :=
  match wordsOfBytes bytes with
  | none => .error .imageOddLength
  | some [] => .error .noOrigin
  | some (o :: ws) => if ws.length ≤ 65536 - o.toNat then .ok ⟨o, ws⟩ else .error .imageTooLarge

/-- A word as its two bytes, bits 15:8 first (R273). -/
def bytesOfWord (w : Word) : List Byte := [w.extractLsb' 8 8, w.extractLsb' 0 8]

/-- An image as its bytes (R273). -/
def Image.bytes (img : Image) : List Byte := (img.origin :: img.words).flatMap bytesOfWord

/-- Words put at consecutive addresses from `o` (R272). The array is written directly, so nothing polls. -/
def loadWords : Word → List Word → Memory → Memory
  | _, [], m => m
  | o, w :: ws, m => loadWords (o + 1) ws (m.writeWord o w)

/-- The images loaded in order, later words over earlier ones (R272). -/
def loadImages : List (List Byte) → Memory → Except ImageError Memory
  | [], m => .ok m
  | bytes :: rest, m =>
    match parseImage bytes with
    | .error e => .error e
    | .ok img => loadImages rest (loadWords img.origin img.words m)

/-- Reset with the images of `IMAGES`, as bytes, and whatever keys the host has queued (10_state.md R41; R270 to R272). -/
def boot (images : List (List Byte)) (keys : List Byte) : Except ImageError State :=
  match images with
  | [] => .error .noImage
  | _ :: _ =>
    match loadImages images State.reset.mem with
    | .error e => .error e
    | .ok m => .ok ((State.reset.setMem m).setKbd keys)

end Sys2Proof.Machine
end

