-- ==== Sys2Proof/Safety.lean ====
section
/-! DEFINITION. What claims about the machine are stated in: its invariant, what stays unchanged between two states, and
the strings and histories that statements speak of. -/

namespace Sys2Proof.Machine

/-- The invariant of a safe run: memory is in its canonical form. -/
def State.Inv (s : State) : Prop := s.mem.wf = true

/-- Every register outside `rs` keeps its value. -/
def RegsExcept (rs : List Reg) (s t : State) : Prop := ∀ r, r ∉ rs → t.reg r = s.reg r

/-- Every byte of memory outside the two bytes of each word address in `as` keeps its value. -/
def MemoryExcept (as : List Word) (s t : State) : Prop :=
  ∀ k : Nat, (∀ a ∈ as, k ≠ highKey a ∧ k ≠ lowKey a) → t.mem.readByte k = s.mem.readByte k

/-- The three host sequences keep their contents (10_state.md R37, R38, R39). -/
def PortsKept (s t : State) : Prop := t.kbd = s.kbd ∧ t.out = s.out ∧ t.notes = s.notes

/-- The state differs from `s` at most in registers, `cc` and `pc`. -/
def OnlyRegistersChange (s t : State) : Prop := t.mem = s.mem ∧ t.run = s.run ∧ PortsKept s t

/-- What 20_memory.md R52 and R53 say of a bus read of `a` from `s` that returns `v` and leaves `t`. -/
def BusRead (a : Word) (s : State) (v : Word) (t : State) : Prop :=
  (a ≠ params.kbsrAddr → v = s.mem.readWord a ∧ t = s) ∧
  (a = params.kbsrAddr → s.kbd = [] →
    v = 0 ∧ t.mem.readWord params.kbsrAddr = 0 ∧ MemoryExcept [params.kbsrAddr] s t ∧ t.kbd = []) ∧
  (∀ b rest, a = params.kbsrAddr → s.kbd = b :: rest →
    v = params.kbsrReady ∧ t.mem.readWord params.kbsrAddr = params.kbsrReady ∧
    (t.mem.readWord params.kbdrAddr).toNat = b.toNat ∧
    MemoryExcept [params.kbsrAddr, params.kbdrAddr] s t ∧ t.kbd = rest) ∧
  RegsExcept [] s t ∧ t.pc = s.pc ∧ t.cc = s.cc ∧ t.run = s.run ∧ t.out = s.out ∧ t.notes = s.notes

/-- The registers an instruction's rule says it may write: its destination, R7 for a link, R0 for GETC and IN
(10_state.md R21; 43_trap_and_unused.md R210). -/
def writtenRegs : Instr → List Reg
  | .addReg dr _ _ | .addImm dr _ _ | .andReg dr _ _ | .andImm dr _ _ | .not dr _ | .ld dr _ | .ldi dr _ | .ldr dr _ _
  | .lea dr _ => [dr]
  | .jsr _ | .jsrr _ | .trap _ | .trapOut | .trapPuts | .trapPutsp | .trapHalt => [linkReg]
  | .trapGetc | .trapIn => [serviceReg, linkReg]
  | .br _ _ _ _ | .jmp _ | .st _ _ | .sti _ _ | .str _ _ _ | .rti | .reserved => []

/-- The designated destination register of the instructions whose rule calls `setcc` (10_state.md R28); none for the
others. GETC and IN designate R0. -/
def flagSource : Instr → Option Reg
  | .addReg dr _ _ | .addImm dr _ _ | .andReg dr _ _ | .andImm dr _ _ | .not dr _ | .ld dr _ | .ldi dr _ | .ldr dr _ _
  | .lea dr _ => some dr
  | .trapGetc | .trapIn => some serviceReg
  | .br _ _ _ _ | .jmp _ | .jsr _ | .jsrr _ | .st _ _ | .sti _ _ | .str _ _ _ | .trap _ | .trapOut | .trapPuts
  | .trapPutsp | .trapHalt | .rti | .reserved => none

/-- The address a store instruction writes, computed as its meaning computes it (42_load_store.md R172, R174, R176). -/
def storeAddress : Instr → State → Option Word
  | .st _ off9, s => some (pcRelative off9 s)
  | .sti _ off9, s => some (memRead (pcRelative off9 s) s).1
  | .str _ base off6, s => some (baseOffset base off6 s)
  | .addReg _ _ _, _ | .addImm _ _ _, _ | .andReg _ _ _, _ | .andImm _ _ _, _ | .not _ _, _ | .br _ _ _ _, _ | .jmp _, _
  | .jsr _, _ | .jsrr _, _ | .ld _ _, _ | .ldi _ _, _ | .ldr _ _ _, _ | .lea _ _, _ | .trap _, _ | .trapGetc, _
  | .trapOut, _ | .trapPuts, _ | .trapIn, _ | .trapPutsp, _ | .trapHalt, _ | .rti, _ | .reserved, _ => none

/-- Whether an instruction assigns `pc` (41_control.md R150). -/
def isControl : Instr → Bool
  | .br _ _ _ _ | .jmp _ | .jsr _ | .jsrr _ => true
  | .addReg _ _ _ | .addImm _ _ _ | .andReg _ _ _ | .andImm _ _ _ | .not _ _ | .ld _ _ | .st _ _ | .ldi _ _ | .sti _ _
  | .ldr _ _ _ | .str _ _ _ | .lea _ _ | .trap _ | .trapGetc | .trapOut | .trapPuts | .trapIn | .trapPutsp | .trapHalt
  | .rti | .reserved => false

/-- Whether an instruction is held in `s`: a GETC or IN with no key waiting (00_scope.md R15). -/
def isHeld (i : Instr) (s : State) : Bool := (i == .trapGetc || i == .trapIn) && s.kbd.isEmpty

/-- The words `ws`, all nonzero, lie at `a`, `a + 1`, … (modulo 65536), a zero word follows, and none of these addresses is
the status address. -/
def StringAt (s : State) : Word → List Word → Prop
  | a, [] => a ≠ params.kbsrAddr ∧ s.mem.readWord a = 0
  | a, w :: ws => a ≠ params.kbsrAddr ∧ s.mem.readWord a = w ∧ w ≠ 0 ∧ StringAt s (a + 1) ws

/-- The words `ws`, all nonzero, lie at `a`, `a + 1`, … (modulo 65536), none at the status address, and the status address
comes next. -/
def RunsIntoStatus (s : State) : Word → List Word → Prop
  | a, [] => a = params.kbsrAddr
  | a, w :: ws => a ≠ params.kbsrAddr ∧ s.mem.readWord a = w ∧ w ≠ 0 ∧ RunsIntoStatus s (a + 1) ws

/-- The bus reads of a scan from `s` (43_trap_and_unused.md R203, R205): at `a`, `a + 1`, … they return the nonzero words
`ws`, then zero, and the last of them leaves `u`. -/
def ScanReads : Word → List Word → State → State → Prop
  | a, [], s, u => (memRead a s).1 = 0 ∧ u = (memRead a s).2
  | a, w :: ws, s, u => (memRead a s).1 = w ∧ w ≠ 0 ∧ ScanReads (a + 1) ws (memRead a s).2 u

/-- What PUTS and PUTSP leave besides the console, the keyboard and the device words (R200, R210): the link in R7, all
else as it was. -/
def StringServiceFrame (s t : State) : Prop :=
  t.reg 7 = s.pc ∧ RegsExcept [7] s t ∧ t.pc = s.pc ∧ t.cc = s.cc ∧ t.run = s.run ∧ t.notes = s.notes

/-- The byte PUTS writes for one word (R203). -/
def lowByte (w : Word) : Byte := w.extractLsb' 0 8

/-- What a TRAP with an unrecognised vector leaves, under either value of `UNKNOWN_TRAP_FATAL`
(43_trap_and_unused.md R207; 60_exceptions.md R241, R244). -/
def AfterUnknownVector (fatal : Bool) (v : BitVec 8) (s t : State) : Prop :=
  t.reg 7 = s.pc ∧ RegsExcept [7] s t ∧ t.pc = s.pc ∧ t.cc = s.cc ∧ t.mem = s.mem ∧ t.kbd = s.kbd ∧ t.out = s.out ∧
    t.run = (if fatal then .faulted else s.run) ∧
    t.notes = s.notes ++ .unknownTrap v :: (if fatal then [.faultDiag .unknownTrapVector] else [])

/-- The bytes PUTSP writes for one word (43_trap_and_unused.md R205). -/
def packedBytes (w : Word) : List Byte :=
  w.extractLsb' 0 8 :: (if w.extractLsb' 8 8 = 0 then [] else [w.extractLsb' 8 8])

/-- The same machine after an earlier console and notice history. -/
def State.after (s : State) (out : List Byte) (notes : List Notice) : State :=
  { s with out := out ++ s.out, notes := notes ++ s.notes }

/-- The word an image puts at an address, if it covers it (70_reset_and_hazards.md R272). -/
def Image.wordAt (img : Image) (a : Word) : Option Word :=
  if img.origin.toNat ≤ a.toNat then img.words[a.toNat - img.origin.toNat]? else none

/-- The word at an address once the images are loaded in order: the last image that covers it wins, and no image gives
zero (R271, R272). -/
def lastLoaded (images : List Image) (a : Word) : Word :=
  (images.reverse.findSome? (fun img => img.wordAt a)).getD 0

/-- R274's precondition: the image fits between its origin and the top of memory. -/
def Image.fits (img : Image) : Prop := img.words.length ≤ 65536 - img.origin.toNat

end Sys2Proof.Machine
end

