-- ==== Sys2Proof/Certificates/Slice0/Obligations.lean ====
section
/-! DEFINITION. The statements about the machine, for the provers. Each docstring says which rules of spec/ it formalises,
and which log entry it rests on where it is the model's own. -/

open Sys2Proof Sys2Proof.Machine

/-! Encoding. -/

/-- Words of spec/95_test_vectors.md part 2.3, written out there from R94's formats, decode to the forms they stand for.
They pin the six trap vectors of R6. The opcode values (R96; notes/assumptions/1.md) and the polarities of bits 5 and 11
(R97, R98; notes/assumptions/2.md) are the spec's general knowledge. -/
def Obligations.DecodeOfWrittenOutWords : Prop :=
  decode 0x0000#16 = .br false false false 0x000#9 ∧
  decode 0x0805#16 = .br true false false 0x005#9 ∧
  decode 0x1261#16 = .addImm 1 1 0b00001#5 ∧
  decode 0x14C4#16 = .addReg 2 3 4 ∧
  decode 0x2202#16 = .ld 1 0x002#9 ∧
  decode 0x3201#16 = .st 1 0x001#9 ∧
  decode 0x4802#16 = .jsr 0x002#11 ∧
  decode 0x40C0#16 = .jsrr 3 ∧
  decode 0x5020#16 = .andImm 0 0 0b00000#5 ∧
  decode 0x62BF#16 = .ldr 1 2 0b111111#6 ∧
  decode 0x7181#16 = .str 0 6 0b000001#6 ∧
  decode 0x8000#16 = .rti ∧
  decode 0x92BF#16 = .not 1 2 ∧
  decode 0xA004#16 = .ldi 0 0x004#9 ∧
  decode 0xB401#16 = .sti 2 0x001#9 ∧
  decode 0xC1C0#16 = .jmp 7 ∧
  decode 0xD000#16 = .reserved ∧
  decode 0xEC07#16 = .lea 6 0x007#9 ∧
  decode 0xF020#16 = .trapGetc ∧
  decode 0xF021#16 = .trapOut ∧
  decode 0xF022#16 = .trapPuts ∧
  decode 0xF023#16 = .trapIn ∧
  decode 0xF024#16 = .trapPutsp ∧
  decode 0xF025#16 = .trapHalt ∧
  decode 0xFFFF#16 = .trap 0xFF#8

/-- Every form of R94, for every value of every field and of every don't-care bit (R99), is read as that form, under any
opcode map that is a bijection (R95). The polarities of bits 5 and 11 are the spec's general knowledge (R97, R98;
notes/assumptions/2.md). -/
def Obligations.DecodeReadsEveryFormat : Prop :=
  ∀ m : OpMap, m.Bijective →
    (∀ (dr sr1 sr2 : Reg) (x : BitVec 2),
      decodeWith m (m.codeOf .add ++ regBits dr ++ regBits sr1 ++ 0#1 ++ x ++ regBits sr2) = .addReg dr sr1 sr2 ∧
      decodeWith m (m.codeOf .and ++ regBits dr ++ regBits sr1 ++ 0#1 ++ x ++ regBits sr2) = .andReg dr sr1 sr2) ∧
    (∀ (dr sr1 : Reg) (imm5 : BitVec 5),
      decodeWith m (m.codeOf .add ++ regBits dr ++ regBits sr1 ++ 1#1 ++ imm5) = .addImm dr sr1 imm5 ∧
      decodeWith m (m.codeOf .and ++ regBits dr ++ regBits sr1 ++ 1#1 ++ imm5) = .andImm dr sr1 imm5) ∧
    (∀ (dr sr1 : Reg) (x : BitVec 6),
      decodeWith m (m.codeOf .not ++ regBits dr ++ regBits sr1 ++ x) = .not dr sr1) ∧
    (∀ (n z p : Bool) (off9 : BitVec 9),
      decodeWith m (m.codeOf .br ++ bit n ++ bit z ++ bit p ++ off9) = .br n z p off9) ∧
    (∀ (base : Reg) (x : BitVec 3) (y : BitVec 6),
      decodeWith m (m.codeOf .jmp ++ x ++ regBits base ++ y) = .jmp base) ∧
    (∀ off11 : BitVec 11, decodeWith m (m.codeOf .jsr ++ 1#1 ++ off11) = .jsr off11) ∧
    (∀ (base : Reg) (x : BitVec 2) (y : BitVec 6),
      decodeWith m (m.codeOf .jsr ++ 0#1 ++ x ++ regBits base ++ y) = .jsrr base) ∧
    (∀ (r : Reg) (off9 : BitVec 9),
      decodeWith m (m.codeOf .ld ++ regBits r ++ off9) = .ld r off9 ∧
      decodeWith m (m.codeOf .st ++ regBits r ++ off9) = .st r off9 ∧
      decodeWith m (m.codeOf .ldi ++ regBits r ++ off9) = .ldi r off9 ∧
      decodeWith m (m.codeOf .sti ++ regBits r ++ off9) = .sti r off9 ∧
      decodeWith m (m.codeOf .lea ++ regBits r ++ off9) = .lea r off9) ∧
    (∀ (r base : Reg) (off6 : BitVec 6),
      decodeWith m (m.codeOf .ldr ++ regBits r ++ regBits base ++ off6) = .ldr r base off6 ∧
      decodeWith m (m.codeOf .str ++ regBits r ++ regBits base ++ off6) = .str r base off6) ∧
    (∀ x : BitVec 4,
      decodeWith m (m.codeOf .trap ++ x ++ params.vGetc) = .trapGetc ∧
      decodeWith m (m.codeOf .trap ++ x ++ params.vOut) = .trapOut ∧
      decodeWith m (m.codeOf .trap ++ x ++ params.vPuts) = .trapPuts ∧
      decodeWith m (m.codeOf .trap ++ x ++ params.vIn) = .trapIn ∧
      decodeWith m (m.codeOf .trap ++ x ++ params.vPutsp) = .trapPutsp ∧
      decodeWith m (m.codeOf .trap ++ x ++ params.vHalt) = .trapHalt ∧
      ∀ v : BitVec 8, v ∉ serviceVectors → decodeWith m (m.codeOf .trap ++ x ++ v) = .trap v) ∧
    ∀ x : BitVec 12, decodeWith m (m.codeOf .rti ++ x) = .rti ∧ decodeWith m (m.codeOf .reserved ++ x) = .reserved

/-- Decoding an encoded well-formed instruction gives it back, for every instruction, every operand value and every opcode
map that is a bijection (R92, R94, R95, R107). -/
def Obligations.DecodeOfEncodeIsIdentity : Prop :=
  ∀ (m : OpMap) (i : Instr), m.Bijective → i.wellFormed = true → decodeWith m (encodeWith m i) = i

/-- Encoding a decoded word gives it back in every bit that is read, and words that agree in those bits decode alike: no
read bit is dropped and no don't-care bit is read (R92, R99). -/
def Obligations.DecodeReadsExactlyTheNamedBits : Prop :=
  ∀ m : OpMap, m.Bijective →
    (∀ w : Word, encodeWith m (decodeWith m w) &&& careMask (decodeWith m w) = w &&& careMask (decodeWith m w)) ∧
    ∀ w w' : Word, w' &&& careMask (decodeWith m w) = w &&& careMask (decodeWith m w) →
      decodeWith m w' = decodeWith m w

/-- Every word decodes to a well-formed instruction, under any opcode map (R100), and the map the machine uses is a
bijection (R95). -/
def Obligations.EveryWordDecodesWellFormed : Prop :=
  (∀ (m : OpMap) (w : Word), (decodeWith m w).wellFormed = true) ∧ opMap.Bijective

/-- R11: `sext_N` in the source's two cases for N = 5, 6, 9, 11, its idempotence, and `zext_N`. -/
def Obligations.SignExtensionFollowsFormula : Prop :=
  (∀ v : BitVec 5, (sext v).toNat = (if v.getLsbD 4 then v.toNat + 65536 - 2 ^ 5 else v.toNat) ∧
    sext ((sext v).extractLsb' 0 5) = sext v) ∧
  (∀ v : BitVec 6, (sext v).toNat = (if v.getLsbD 5 then v.toNat + 65536 - 2 ^ 6 else v.toNat) ∧
    sext ((sext v).extractLsb' 0 6) = sext v) ∧
  (∀ v : BitVec 9, (sext v).toNat = (if v.getLsbD 8 then v.toNat + 65536 - 2 ^ 9 else v.toNat) ∧
    sext ((sext v).extractLsb' 0 9) = sext v) ∧
  (∀ v : BitVec 11, (sext v).toNat = (if v.getLsbD 10 then v.toNat + 65536 - 2 ^ 11 else v.toNat) ∧
    sext ((sext v).extractLsb' 0 11) = sext v) ∧
  ∀ n : Nat, n ≤ 16 → ∀ v : BitVec n, (zext v).toNat = v.toNat

/-- R62, R93, R170: effective addresses are the signed offset added to the incremented `pc` or to the base register,
modulo 65536. -/
def Obligations.EffectiveAddressesWrap : Prop :=
  ∀ s : State,
    (∀ off9 : BitVec 9, ((pcRelative off9 s).toNat : Int) = ((s.pc.toNat : Int) + off9.toInt) % 65536) ∧
    (∀ off11 : BitVec 11, ((pcRelative off11 s).toNat : Int) = ((s.pc.toNat : Int) + off11.toInt) % 65536) ∧
    ∀ (base : Reg) (off6 : BitVec 6),
      ((baseOffset base off6 s).toNat : Int) = (((s.reg base).toNat : Int) + off6.toInt) % 65536

/-! Reset and images. -/

/-- R270: the register file and the run state at reset. -/
def Obligations.ResetRegistersAndRunState : Prop :=
  (∀ r, State.reset.reg r = 0x0000#16) ∧ State.reset.pc = 0x3000#16 ∧ State.reset.cc = .Z ∧
    State.reset.run = .running

/-- R41, R271: with no image loaded every word of memory is zero at reset, and `out` and `notes` are empty. R6, R53: the
status address is `0xFE00` and the data address `0xFE02`; with any keys queued, a bus read of the first returns `0x8000`,
leaves that word there, and latches the head key in the second. That `kbd` is empty in `State.reset` is the model's choice
(notes/assumptions/20.md) and is not stated. -/
def Obligations.ResetMemoryAndPorts : Prop :=
  (∀ a, State.reset.mem.readWord a = 0x0000#16) ∧ State.reset.out = [] ∧ State.reset.notes = [] ∧
    params.kbsrAddr = 0xFE00#16 ∧ params.kbdrAddr = 0xFE02#16 ∧ params.kbsrReady = 0x8000#16 ∧
    ∀ (b : Byte) (rest : List Byte),
      let polled := memRead 0xFE00#16 (State.reset.setKbd (b :: rest))
      polled.1 = 0x8000#16 ∧ polled.2.mem.readWord 0xFE00#16 = 0x8000#16 ∧ polled.2.mem.readWord 0xFE02#16 = zext b

/-- R273: the image format, bit-exact: a big-endian origin word, then big-endian words, the first byte of each pair being
bits 15:8, loaded at consecutive addresses from the origin; none but the origin is allowed. -/
def Obligations.ImageFormatIsBigEndian : Prop :=
  ∀ (hi lo : Byte) (pairs : List (Byte × Byte)), pairs.length ≤ 65536 - (hi.toNat * 256 + lo.toNat) →
    ∃ img, parseImage (hi :: lo :: pairs.flatMap (fun b => [b.1, b.2])) = .ok img ∧
      img.origin.toNat = hi.toNat * 256 + lo.toNat ∧
      img.words.map BitVec.toNat = pairs.map (fun b => b.1.toNat * 256 + b.2.toNat) ∧
      ∀ (m : Memory) (i : Nat) (h : i < img.words.length),
        (loadWords img.origin img.words m).readWord (BitVec.ofNat 16 (img.origin.toNat + i)) = img.words[i]

/-- R272, R41: reset with images that fit, given as bytes, runs from `START_PC` whatever their
origins, with the last image that covers an address giving its word and zero elsewhere, and with the host's keys as
they were. -/
def Obligations.BootLoadsImagesLastWins : Prop :=
  ∀ (images : List Image) (keys : List Byte), images ≠ [] → (∀ img ∈ images, img.fits) →
    ∃ t, boot (images.map Image.bytes) keys = .ok t ∧
      (∀ a, t.mem.readWord a = lastLoaded images a) ∧
      (∀ r, t.reg r = 0) ∧ t.pc = params.startPc ∧ t.cc = .Z ∧ t.run = .running ∧ t.kbd = keys ∧ t.out = [] ∧
      t.notes = [] ∧ t.Inv

/-- R274: an image with more words than `65536 - origin` gives no run, whatever other images there are. -/
def Obligations.BootRejectsTooLargeImage : Prop :=
  ∀ (before : List (List Byte)) (img : Image) (after : List (List Byte)) (keys : List Byte), ¬ img.fits →
    ∃ e, boot (before ++ img.bytes :: after) keys = .error e ∧ (before = [] → e = .imageTooLarge)

/-- R275: an image of odd byte count, or of no bytes, gives no run. -/
def Obligations.BootRejectsMalformedImage : Prop :=
  ∀ (before : List (List Byte)) (bytes : List Byte) (after : List (List Byte)) (keys : List Byte),
    (bytes.length % 2 = 1 ∨ bytes.length < 2) → ∃ e, boot (before ++ bytes :: after) keys = .error e

/-! Registers, flags, memory, the keyboard. -/

/-- R20, R21, R23: a register write is what a read of that register gives, for all eight registers, `R0` and `R7`
included; every other register and every other part of the state keeps its value. -/
def Obligations.RegisterWriteReadsBack : Prop :=
  ∀ (s : State) (r : Reg) (v : Word),
    (s.setReg r v).reg r = v ∧ RegsExcept [r] s (s.setReg r v) ∧ (s.setReg r v).pc = s.pc ∧
      (s.setReg r v).cc = s.cc ∧ OnlyRegistersChange s (s.setReg r v)

/-- R27: `setcc(i)` sets the one flag that matches `x[i]`: Z iff it is 0, N iff bit 15 is set, P otherwise. -/
def Obligations.SetccMatchesValue : Prop :=
  ∀ (s : State) (i : Reg),
    ((s.setccFrom i).cc = .Z ↔ s.reg i = 0) ∧
    ((s.setccFrom i).cc = .N ↔ (s.reg i).getLsbD 15 = true) ∧
    ((s.setccFrom i).cc = .P ↔ 1 ≤ (s.reg i).toNat ∧ (s.reg i).toNat ≤ 0x7FFF)

/-- R29: the one-hot form of `cc` has exactly one bit set, and BR is taken exactly when `(ir[11:9] AND cc) != 0`. -/
def Obligations.BranchTestIsOneHotMask : Prop :=
  ∀ (n z p : Bool) (cc : ConditionCode),
    (cc.bits = 0b100#3 ∨ cc.bits = 0b010#3 ∨ cc.bits = 0b001#3) ∧
    (branchTaken n z p cc = true ↔ (bit n ++ bit z ++ bit p) &&& cc.bits ≠ 0#3)

/-- R56, R57: a bus write stores its word, changes no other byte of memory, and has no side effect at any address: no
register, flag, `pc`, run state or host sequence changes, at the device addresses too. -/
def Obligations.BusWriteIsPlainStore : Prop :=
  ∀ (a v : Word) (s : State),
    (memWrite a v s).mem.readWord a = v ∧ MemoryExcept [a] s (memWrite a v s) ∧ RegsExcept [] s (memWrite a v s) ∧
      (memWrite a v s).pc = s.pc ∧ (memWrite a v s).cc = s.cc ∧ (memWrite a v s).run = s.run ∧
      PortsKept s (memWrite a v s)

/-- R52, R53: a bus read returns the backing word and changes nothing, but at the status address, where it polls first:
with a key waiting it returns `0x8000`, takes the head key and latches it zero-extended into the data word; with none it
returns 0, clears the status word and leaves the data word alone. -/
def Obligations.BusReadPollsAtStatusAddress : Prop :=
  ∀ (a : Word) (s : State), BusRead a s (memRead a s).1 (memRead a s).2

/-- The canonical form is one: two canonical memories that read alike are equal data (notes/assumptions/22.md; the model's
own representation, no rule of the spec). -/
def Obligations.CanonicalMemoryIsUnique : Prop :=
  ∀ m m' : Memory, m.wf = true → m'.wf = true → (∀ a, m.readWord a = m'.readWord a) → m = m'

/-- R25, R26: the fetch is a bus read at `pc`, and leaves `pc` incremented modulo 65536 and all else as the read left it.
R67: a store is seen by the very next fetch of its address, away from the status address, whose fetch returns the poll's
result (R52). -/
def Obligations.FetchReadsThenIncrements : Prop :=
  ∀ s : State, (fetch s).2.pc.toNat = (s.pc.toNat + 1) % 65536 ∧
    BusRead s.pc s (fetch s).1 ((fetch s).2.setPc s.pc) ∧
    ∀ v : Word, s.pc ≠ params.kbsrAddr → (fetch (memWrite s.pc v s)).1 = v

/-! ADD, AND, NOT. -/

/-- R130, R131: ADD in both forms. The sum modulo 65536 of the old operands goes to `dr`, `cc` follows it, and nothing
else changes. -/
def Obligations.AddWritesSumModulo65536 : Prop :=
  ∀ (s : State) (dr sr1 sr2 : Reg) (imm5 : BitVec 5),
    (∃ t, exec (.addReg dr sr1 sr2) s = .next t ∧
      (t.reg dr).toNat = ((s.reg sr1).toNat + (s.reg sr2).toNat) % 65536 ∧ t.cc = classify (t.reg dr) ∧
      RegsExcept [dr] s t ∧ t.pc = s.pc ∧ OnlyRegistersChange s t) ∧
    ∃ t, exec (.addImm dr sr1 imm5) s = .next t ∧
      (t.reg dr).toNat = ((s.reg sr1).toNat + (sext imm5).toNat) % 65536 ∧ t.cc = classify (t.reg dr) ∧
      RegsExcept [dr] s t ∧ t.pc = s.pc ∧ OnlyRegistersChange s t

/-- R130, R132: AND in both forms, bit by bit, the immediate extended first. -/
def Obligations.AndWritesConjunction : Prop :=
  ∀ (s : State) (dr sr1 sr2 : Reg) (imm5 : BitVec 5),
    (∃ t, exec (.andReg dr sr1 sr2) s = .next t ∧
      (∀ k, (t.reg dr).getLsbD k = ((s.reg sr1).getLsbD k && (s.reg sr2).getLsbD k)) ∧ t.cc = classify (t.reg dr) ∧
      RegsExcept [dr] s t ∧ t.pc = s.pc ∧ OnlyRegistersChange s t) ∧
    ∃ t, exec (.andImm dr sr1 imm5) s = .next t ∧
      (∀ k, (t.reg dr).getLsbD k = ((s.reg sr1).getLsbD k && (sext imm5).getLsbD k)) ∧ t.cc = classify (t.reg dr) ∧
      RegsExcept [dr] s t ∧ t.pc = s.pc ∧ OnlyRegistersChange s t

/-- R130, R133: NOT writes `0xFFFF - x[sr]`. -/
def Obligations.NotWritesComplement : Prop :=
  ∀ (s : State) (dr sr1 : Reg),
    ∃ t, exec (.not dr sr1) s = .next t ∧ (t.reg dr).toNat = 65535 - (s.reg sr1).toNat ∧ t.cc = classify (t.reg dr) ∧
      RegsExcept [dr] s t ∧ t.pc = s.pc ∧ OnlyRegistersChange s t

/-! BR, JMP, JSR, JSRR. -/

/-- R150, R151: BR goes to `pc + sext_9(off9)` when a tested flag is the one set, and otherwise on; only `pc` changes. -/
def Obligations.BranchTakenOnMatchingFlag : Prop :=
  ∀ (s : State) (n z p : Bool) (off9 : BitVec 9),
    ∃ t, exec (.br n z p off9) s = .next t ∧
      ((n = true ∧ s.cc = .N ∨ z = true ∧ s.cc = .Z ∨ p = true ∧ s.cc = .P) → t.pc = pcRelative off9 s) ∧
      (¬ (n = true ∧ s.cc = .N ∨ z = true ∧ s.cc = .Z ∨ p = true ∧ s.cc = .P) → t.pc = s.pc) ∧
      RegsExcept [] s t ∧ t.cc = s.cc ∧ OnlyRegistersChange s t

/-- R150, R152: JMP goes to the base register's value, any register; only `pc` changes. -/
def Obligations.JumpGoesToBaseRegister : Prop :=
  ∀ (s : State) (base : Reg),
    ∃ t, exec (.jmp base) s = .next t ∧ t.pc = s.reg base ∧ RegsExcept [] s t ∧ t.cc = s.cc ∧ OnlyRegistersChange s t

/-- R150, R153: JSR links the incremented `pc` in R7, without flags, and goes to `pc + sext_11(off11)`. -/
def Obligations.JsrLinksAndJumps : Prop :=
  ∀ (s : State) (off11 : BitVec 11),
    ∃ t, exec (.jsr off11) s = .next t ∧ t.reg 7 = s.pc ∧ t.pc = pcRelative off11 s ∧ RegsExcept [7] s t ∧
      t.cc = s.cc ∧ OnlyRegistersChange s t

/-- R150, R154: JSRR links, then goes to the base register as it is AFTER the link: with `base = R7` to the next
instruction. The order is the spec's reading (its decision D7; notes/assumptions/6.md). -/
def Obligations.JsrrLinksThenReadsBase : Prop :=
  ∀ (s : State) (base : Reg),
    ∃ t, exec (.jsrr base) s = .next t ∧ t.reg 7 = s.pc ∧ (base ≠ 7 → t.pc = s.reg base) ∧
      (base = 7 → t.pc = s.pc) ∧ RegsExcept [7] s t ∧ t.cc = s.cc ∧ OnlyRegistersChange s t

/-! Loads, stores, LEA. -/

/-- R170, R171, R175: LD and LDR put the word a bus read of the effective address returns in `dr`, set `cc` from it, and
leave memory and the keyboard as that read left them. -/
def Obligations.LoadsReadEffectiveAddress : Prop :=
  ∀ (s : State) (dr base : Reg) (off9 : BitVec 9) (off6 : BitVec 6),
    (∃ t, exec (.ld dr off9) s = .next t ∧ t.reg dr = (memRead (pcRelative off9 s) s).1 ∧ t.cc = classify (t.reg dr) ∧
      RegsExcept [dr] s t ∧ t.pc = s.pc ∧ OnlyRegistersChange (memRead (pcRelative off9 s) s).2 t) ∧
    ∃ t, exec (.ldr dr base off6) s = .next t ∧ t.reg dr = (memRead (baseOffset base off6 s) s).1 ∧
      t.cc = classify (t.reg dr) ∧ RegsExcept [dr] s t ∧ t.pc = s.pc ∧
      OnlyRegistersChange (memRead (baseOffset base off6 s) s).2 t

/-- R170, R173: LDI makes two bus reads, the pointer and then the data, in this order. -/
def Obligations.LoadIndirectReadsTwice : Prop :=
  ∀ (s : State) (dr : Reg) (off9 : BitVec 9),
    let pointer := memRead (pcRelative off9 s) s
    ∃ t, exec (.ldi dr off9) s = .next t ∧ t.reg dr = (memRead pointer.1 pointer.2).1 ∧ t.cc = classify (t.reg dr) ∧
      RegsExcept [dr] s t ∧ t.pc = s.pc ∧ OnlyRegistersChange (memRead pointer.1 pointer.2).2 t

/-- R170, R172, R176: ST and STR store the register at the effective address, at the device addresses too, and change
nothing else: no register, no flag, no other byte, no key taken. -/
def Obligations.StoresWriteEffectiveAddress : Prop :=
  ∀ (s : State) (sr base : Reg) (off9 : BitVec 9) (off6 : BitVec 6),
    (∃ t, exec (.st sr off9) s = .next t ∧ t.mem.readWord (pcRelative off9 s) = s.reg sr ∧
      MemoryExcept [pcRelative off9 s] s t ∧ RegsExcept [] s t ∧ t.pc = s.pc ∧ t.cc = s.cc ∧ t.run = s.run ∧
      PortsKept s t) ∧
    ∃ t, exec (.str sr base off6) s = .next t ∧ t.mem.readWord (baseOffset base off6 s) = s.reg sr ∧
      MemoryExcept [baseOffset base off6 s] s t ∧ RegsExcept [] s t ∧ t.pc = s.pc ∧ t.cc = s.cc ∧ t.run = s.run ∧
      PortsKept s t

/-- R170, R174: STI reads the pointer by a bus read, then stores at it; the other bytes and the keyboard are as the pointer
read left them. -/
def Obligations.StoreIndirectWritesPointedWord : Prop :=
  ∀ (s : State) (sr : Reg) (off9 : BitVec 9),
    let pointer := memRead (pcRelative off9 s) s
    ∃ t, exec (.sti sr off9) s = .next t ∧ t.mem.readWord pointer.1 = s.reg sr ∧
      MemoryExcept [pointer.1] pointer.2 t ∧ RegsExcept [] s t ∧ t.pc = s.pc ∧ t.cc = s.cc ∧ t.run = s.run ∧
      PortsKept pointer.2 t

/-- R170, R177: LEA puts the PC-relative address itself in `dr`, sets `cc` from it, and reads no memory. -/
def Obligations.LeaWritesAddress : Prop :=
  ∀ (s : State) (dr : Reg) (off9 : BitVec 9),
    ∃ t, exec (.lea dr off9) s = .next t ∧ t.reg dr = pcRelative off9 s ∧ t.cc = classify (t.reg dr) ∧
      RegsExcept [dr] s t ∧ t.pc = s.pc ∧ OnlyRegistersChange s t

/-! TRAP and its services, RTI, the reserved class. -/

/-- R200, R201, R204: GETC and IN with a key waiting take the head key into R0 zero-extended, set `cc` to Z or P from it,
link in R7, and write nothing to the console; IN's silence is the default `IN_ECHO = none`. -/
def Obligations.GetcAndInTakeHeadKey : Prop :=
  ∀ (s : State) (b : Byte) (rest : List Byte), s.kbd = b :: rest → ∀ i : Instr, i = .trapGetc ∨ i = .trapIn →
    ∃ t, exec i s = .next t ∧ (t.reg 0).toNat = b.toNat ∧ t.cc = (if b = 0 then .Z else .P) ∧ t.reg 7 = s.pc ∧
      RegsExcept [0, 7] s t ∧ t.pc = s.pc ∧ t.kbd = rest ∧ t.run = s.run ∧ t.mem = s.mem ∧ t.out = s.out ∧
      t.notes = s.notes

/-- R204, R7: IN is the service under the machine's `IN_ECHO`: GETC under `none`, and GETC followed by the key on the
console under `echo`. `exec` takes `none` (R7's default; notes/assumptions/16.md). -/
def Obligations.InEchoesOnlyWhenConfigured : Prop :=
  (∀ (o : Options) (s : State), execWith o .trapIn s = readCharService o.inEcho s) ∧
  (∀ s : State, exec .trapIn s = readCharService .none s) ∧
  ∀ (s : State) (b : Byte) (rest : List Byte), s.kbd = b :: rest →
    ∃ t, exec .trapGetc s = .next t ∧ readCharService .none s = .next t ∧
      readCharService .echo s = .next { t with out := s.out ++ [b] }

/-- R201, R204, R15: with no key waiting, a fetched GETC or IN is held: the step leaves the whole state as it was, in
RUNNING with `pc` at the TRAP and R7 unwritten, until the host appends a key (notes/assumptions/11.md: that a held step
is a step that changes nothing is the model's form). -/
def Obligations.GetcAndInHeldWithoutKey : Prop :=
  ∀ s : State, s.run = .running → s.kbd = [] → s.pc ≠ params.kbsrAddr →
    (decode (s.mem.readWord s.pc) = .trapGetc ∨ decode (s.mem.readWord s.pc) = .trapIn) → step s = .next s

/-- R37, R201: the host appending a key lifts the hold: the next step takes that key. -/
def Obligations.HostKeyLiftsHold : Prop :=
  ∀ (s : State) (b : Byte) (bs : List Byte), s.run = .running → s.kbd = [] → s.pc ≠ params.kbsrAddr →
    (decode (s.mem.readWord s.pc) = .trapGetc ∨ decode (s.mem.readWord s.pc) = .trapIn) →
    ∃ t, step (s.hostAppend (b :: bs)) = .next t ∧ t.reg 0 = zext b ∧ t.reg 7 = s.pc + 1 ∧ t.pc = s.pc + 1 ∧
      t.kbd = bs ∧ t.run = .running

/-- R200, R202: OUT appends R0's low byte to the console; only R7 and the console change. -/
def Obligations.OutWritesLowByte : Prop :=
  ∀ s : State, ∃ t, exec .trapOut s = .next t ∧ t.out = s.out ++ [BitVec.ofNat 8 ((s.reg 0).toNat % 256)] ∧
    t.reg 7 = s.pc ∧ RegsExcept [7] s t ∧ t.pc = s.pc ∧ t.cc = s.cc ∧ t.run = s.run ∧ t.mem = s.mem ∧
    t.kbd = s.kbd ∧ t.notes = s.notes

/-- R200, R203: PUTS writes one low byte a word, stops at the zero word, and changes only R7 and the console, for a string
clear of the status address. A string that runs into the status address ends there with no key waiting, the status word
cleared (V-PUTS-4); with a key waiting the scan takes it, reads `0x8000` and goes on at the next address, over the latched
key. Under either value of `PUTS_WIDE` for words up to `0x00FF`; above, `low_byte` writes the low byte and `refuse` gives
the step no meaning. `exec` takes `low_byte`, the model's choice (notes/assumptions/13.md). -/
def Obligations.PutsPrintsString : Prop :=
  (∀ (s : State) (ws : List Word), StringAt s (s.reg 0) ws →
    (∀ wide : PutsWide, (∀ w ∈ ws, w.toNat ≤ 0xFF) ∨ wide = .lowByte →
      ∃ t, putsService wide s = .next t ∧ t.out = s.out ++ ws.map lowByte ∧ StringServiceFrame s t ∧ t.mem = s.mem ∧
        t.kbd = s.kbd) ∧
    ((∃ w ∈ ws, 0xFF < w.toNat) → putsService .refuse s = .refused .putsWideWord)) ∧
  (∀ (s : State) (ws : List Word), RunsIntoStatus s (s.reg 0) ws → s.kbd = [] →
    (∀ wide : PutsWide, (∀ w ∈ ws, w.toNat ≤ 0xFF) ∨ wide = .lowByte →
      ∃ t, putsService wide s = .next t ∧ t.out = s.out ++ ws.map lowByte ∧ StringServiceFrame s t ∧
        t.mem.readWord params.kbsrAddr = 0 ∧ MemoryExcept [params.kbsrAddr] s t ∧ t.kbd = []) ∧
    ((∃ w ∈ ws, 0xFF < w.toNat) → putsService .refuse s = .refused .putsWideWord)) ∧
  (∀ (s : State) (ws : List Word) (b : Byte) (rest : List Byte), RunsIntoStatus s (s.reg 0) ws → s.kbd = b :: rest →
    (∀ ws' : List Word, StringAt s.poll (params.kbsrAddr + 1) ws' →
      ∃ t, putsService .lowByte s = .next t ∧ t.out = s.out ++ (ws ++ params.kbsrReady :: ws').map lowByte ∧
        StringServiceFrame s t ∧ t.mem.readWord params.kbsrAddr = params.kbsrReady ∧
        (t.mem.readWord params.kbdrAddr).toNat = b.toNat ∧ MemoryExcept [params.kbsrAddr, params.kbdrAddr] s t ∧
        t.kbd = rest) ∧
    putsService .refuse s = .refused .putsWideWord) ∧
  (∀ (o : Options) (s : State), execWith o .trapPuts s = putsService o.putsWide s) ∧
  ∀ s : State, exec .trapPuts s = putsService .lowByte s

/-- R200, R205: PUTSP writes the low byte of each word, then the high byte if it is not zero, and stops at the zero word; a
zero low byte of a nonzero word is written (decision D26). A string clear of the status address changes only R7 and the
console; one that runs into it ends there with no key waiting, or takes a key, reads `0x8000` and goes on. -/
def Obligations.PutspPrintsPackedString : Prop :=
  (∀ (s : State) (ws : List Word), StringAt s (s.reg 0) ws →
    ∃ t, exec .trapPutsp s = .next t ∧ t.out = s.out ++ ws.flatMap packedBytes ∧ StringServiceFrame s t ∧
      t.mem = s.mem ∧ t.kbd = s.kbd) ∧
  (∀ (s : State) (ws : List Word), RunsIntoStatus s (s.reg 0) ws → s.kbd = [] →
    ∃ t, exec .trapPutsp s = .next t ∧ t.out = s.out ++ ws.flatMap packedBytes ∧ StringServiceFrame s t ∧
      t.mem.readWord params.kbsrAddr = 0 ∧ MemoryExcept [params.kbsrAddr] s t ∧ t.kbd = []) ∧
  ∀ (s : State) (ws ws' : List Word) (b : Byte) (rest : List Byte), RunsIntoStatus s (s.reg 0) ws →
    s.kbd = b :: rest → StringAt s.poll (params.kbsrAddr + 1) ws' →
    ∃ t, exec .trapPutsp s = .next t ∧ t.out = s.out ++ (ws ++ params.kbsrReady :: ws').flatMap packedBytes ∧
      StringServiceFrame s t ∧ t.mem.readWord params.kbsrAddr = params.kbsrReady ∧
      (t.mem.readWord params.kbdrAddr).toNat = b.toNat ∧ MemoryExcept [params.kbsrAddr, params.kbdrAddr] s t ∧
      t.kbd = rest

/-- R203, R205, R37: PUTS and PUTSP complete from EVERY state, however often the string crosses the status address and
wraps: each pass over it takes a key or reads zero, and the host types nothing during a step. So the hang of R203 never
occurs (DEDUCED; notes/assumptions/23.md). They write the bytes of the words their bus reads return, leave memory and the
keyboard as those reads leave them, link, and keep all else. PUTS runs here under `PUTS_WIDE = low_byte`, the model's
choice (notes/assumptions/13.md). -/
def Obligations.StringServicesAlwaysComplete : Prop :=
  ∀ s : State, ∃ ws u, ScanReads (s.reg 0) ws s u ∧
    ∀ i : Instr, i = .trapPuts ∨ i = .trapPutsp →
      ∃ t, exec i s = .next t ∧
        t.out = s.out ++ (if i = .trapPuts then ws.map lowByte else ws.flatMap packedBytes) ∧
        t.mem = u.mem ∧ t.kbd = u.kbd ∧ StringServiceFrame s t ∧ t.kbd <:+ s.kbd ∧
        MemoryExcept [params.kbsrAddr, params.kbdrAddr] s t

/-- R200, R206: HALT links, emits the halt notice and enters HALTED; registers, `cc` and memory keep their values, and no
further step is taken. -/
def Obligations.HaltStopsTheMachine : Prop :=
  ∀ s : State, ∃ t, exec .trapHalt s = .next t ∧ t.run = .halted ∧ t.notes = s.notes ++ [.haltNotice] ∧
    t.reg 7 = s.pc ∧ RegsExcept [7] s t ∧ t.pc = s.pc ∧ t.cc = s.cc ∧ t.mem = s.mem ∧ t.kbd = s.kbd ∧ t.out = s.out ∧
    step t = .fault .halted

/-- R200, R207, R244: a TRAP whose vector names no service links and emits the notice; then it goes on, or under
`UNKNOWN_TRAP_FATAL` it enters FAULTED with the diagnostic. `exec` goes on (R7's default; notes/assumptions/15.md). -/
def Obligations.UnknownVectorNotices : Prop :=
  ∀ (s : State) (v : BitVec 8),
    (v ∉ serviceVectors →
      (∃ t, exec (.trap v) s = .next t ∧ AfterUnknownVector false v s t) ∧
      ∀ o : Options, ∃ t, execWith o (.trap v) s = .next t ∧ AfterUnknownVector o.unknownTrapFatal v s t) ∧
    ∀ fatal : Bool, ∃ t, unknownVector fatal v s = .next t ∧ AfterUnknownVector fatal v s t

/-- R101, R208, R209: RTI and the reserved class do nothing after the fetch. -/
def Obligations.UnusedClassesDoNothing : Prop :=
  ∀ (s : State) (i : Instr), i = .rti ∨ i = .reserved →
    ∃ t, exec i s = .next t ∧ RegsExcept [] s t ∧ t.pc = s.pc ∧ t.cc = s.cc ∧ OnlyRegistersChange s t

/-- R241: `raise Fault(r)` enters FAULTED and emits the diagnostic; registers, `pc`, `cc`, memory and the ports keep their
values, and no further step is ever taken. -/
def Obligations.RaiseFaultIsTerminal : Prop :=
  ∀ (r : FaultCause) (s : State), ∃ t, raiseFault r s = .next t ∧ t.run = .faulted ∧
    t.notes = s.notes ++ [.faultDiag r] ∧ RegsExcept [] s t ∧ t.pc = s.pc ∧ t.cc = s.cc ∧ t.mem = s.mem ∧
    t.kbd = s.kbd ∧ t.out = s.out ∧ step t = .fault .faulted

/-! The whole machine. -/

/-- R8, R25, R7: a step in RUNNING is the fetch, the decoding of the fetched word, and the execution of that instruction on
the state the fetch left, with `pc` already incremented, under every value of the open parameters; `step` is the step
under `options`. Away from the status address the fetch changes `pc` only. -/
def Obligations.StepRunsDecodedInstruction : Prop :=
  (∀ (s : State) (i : Instr), s.run = .running →
    (decode (fetch s).1 = i → step s = exec i (fetch s).2) ∧
    (s.pc ≠ params.kbsrAddr → decode (s.mem.readWord s.pc) = i → step s = exec i (s.setPc (s.pc + 1)))) ∧
  (∀ (o : Options) (s : State), s.run = .running →
    stepWith o s = execWith o (decodeWith o.opMap (fetch s).1) (fetch s).2) ∧
  ∀ s : State, stepWith options s = step s

/-- The step after `withFetchWord` of an encoded well-formed instruction runs that instruction, from any state
(notes/assumptions/27.md: `withFetchWord` is the model's own, no rule of the spec). -/
def Obligations.WithFetchWordRunsInstruction : Prop :=
  ∀ (s : State) (i : Instr), i.wellFormed = true →
    ∃ u, step (s.withFetchWord 16 (encode i).toNat) = exec i u ∧ u.pc = s.fetchSlot + 1 ∧ RegsExcept [] s u ∧
      u.cc = s.cc ∧ u.run = .running ∧ MemoryExcept [s.fetchSlot] s u ∧ PortsKept s u

/-- R55, R281: a fetch at the status address is a bus read that polls, and returns `0x8000` or `0`, never a stored word;
under the opcode map in use (notes/assumptions/1.md) both run as no-operations. So the step goes on at the next address and
otherwise leaves what the poll leaves: its values in the device words, the keyboard without the key taken, every register,
`cc`, the console and the notices as they were. -/
def Obligations.FetchAtStatusAddressIsNoOperation : Prop :=
  ∀ s : State, s.run = .running → s.pc = params.kbsrAddr →
    (fetch s).1 = (if s.kbd = [] then 0 else params.kbsrReady) ∧
    ∃ t, step s = .next t ∧ t.pc = s.pc + 1 ∧ BusRead s.pc s (fetch s).1 (t.setPc s.pc) ∧
      t.mem = (memRead s.pc s).2.mem ∧ RegsExcept [] s t ∧ t.cc = s.cc ∧ t.run = .running ∧ t.kbd = s.kbd.tail ∧
      t.out = s.out ∧ t.notes = s.notes ∧ MemoryExcept [params.kbsrAddr, params.kbdrAddr] s t

/-- R30: a step exists only in RUNNING. A step that answers a next state, or refuses, started in RUNNING, and in HALTED and
FAULTED no next state is answered, whatever the memory holds. -/
def Obligations.StepExistsOnlyInRunning : Prop :=
  ∀ s : State, (∀ t, step s = .next t → s.run = .running) ∧
    (s.run = .halted → step s = .fault .halted) ∧ (s.run = .faulted → step s = .fault .faulted)

/-- R100, R240: from every state in RUNNING a step answers a next state: no word faults, no instruction is refused, no
access stops, and no string scan runs for ever (DEDUCED; notes/assumptions/23.md). That is `step`, with `PUTS_WIDE =
low_byte`, the model's choice (notes/assumptions/13.md), and a held step answering the same state
(notes/assumptions/11.md). Under any other parameters the same holds, but for the one PUTS that `refuse` leaves without a
meaning. -/
def Obligations.RunningMachineAlwaysSteps : Prop :=
  ∀ s : State, s.run = .running →
    (∃ t, step s = .next t) ∧
    ∀ o : Options, (∃ t, stepWith o s = .next t) ∨
      (o.putsWide = .refuse ∧ decodeWith o.opMap (fetch s).1 = .trapPuts ∧ stepWith o s = .refused .putsWideWord)

/-- R30, R206, R242, R244, C9: under any parameters HALTED is entered by HALT and by nothing else, and FAULTED exactly by
an unrecognised vector under `UNKNOWN_TRAP_FATAL`; so `exec`, which has its default `false` (notes/assumptions/15.md),
never enters FAULTED. -/
def Obligations.OnlyHaltLeavesRunning : Prop :=
  ∀ (s t : State) (i : Instr), s.run = .running → i.wellFormed = true →
    (∀ o : Options, execWith o i s = .next t →
      (t.run = .halted ↔ i = .trapHalt) ∧ (t.run = .faulted ↔ o.unknownTrapFatal = true ∧ ∃ v, i = .trap v)) ∧
    (exec i s = .next t → (t.run = .halted ↔ i = .trapHalt) ∧ t.run ≠ .faulted)

/-- R28: what writes `cc`. An instruction whose rule calls `setcc` leaves `cc` as the classification of its destination
register; every other one leaves it alone, the link write of R7 included. A held GETC or IN writes nothing. -/
def Obligations.ConditionCodeWrittenOnlyByRule : Prop :=
  ∀ (s t : State) (i : Instr), i.wellFormed = true → exec i s = .next t →
    (flagSource i = none → t.cc = s.cc) ∧
    (∀ r, flagSource i = some r → isHeld i s = false → t.cc = classify (t.reg r)) ∧
    (isHeld i s = true → t.cc = s.cc)

/-- R21, R130, R150, R170, R210: no instruction writes a register but those its rule names: its destination, R7 by JSR, JSRR
and TRAP, R0 by GETC and IN. -/
def Obligations.RegistersWrittenOnlyByRule : Prop :=
  ∀ (s t : State) (i : Instr), i.wellFormed = true → exec i s = .next t → RegsExcept (writtenRegs i) s t

/-- R56, R53: memory is written by ST, STI and STR at the address they compute, and by a poll at the two device addresses;
no instruction writes any other byte. -/
def Obligations.MemoryWrittenOnlyByStoresAndPolls : Prop :=
  ∀ (s t : State) (i : Instr), i.wellFormed = true → exec i s = .next t →
    (∀ a, storeAddress i s = some a → MemoryExcept [params.kbsrAddr, params.kbdrAddr, a] s t) ∧
    (storeAddress i s = none → MemoryExcept [params.kbsrAddr, params.kbdrAddr] s t)

/-- R25, R150, R200: an instruction that is no control transfer leaves `pc` at the incremented value; a held GETC or IN
leaves the machine at its own address. -/
def Obligations.OnlyControlTransfersAssignPc : Prop :=
  ∀ (s t : State) (i : Instr), i.wellFormed = true → exec i s = .next t → isControl i = false →
    (isHeld i s = false → t.pc = s.pc) ∧ (isHeld i s = true → t = s.setPc (s.pc - 1))

/-- R200, R248: every TRAP that is not held saves the address of the next instruction in R7, for every vector, and goes on
there; no mode or stack exists to change. -/
def Obligations.EveryTrapLinksInR7 : Prop :=
  ∀ (s t : State) (i : Instr), i.opClass = .trap → isHeld i s = false → i.wellFormed = true → exec i s = .next t →
    t.reg 7 = s.pc ∧ t.pc = s.pc

/-- The memory of the reset state is in canonical form (notes/assumptions/22.md). -/
def Obligations.ResetMemoryIsCanonical : Prop := State.reset.Inv

/-- Every step keeps memory in its canonical form (notes/assumptions/22.md; the model's own representation), from every
state that has it. -/
def Obligations.StepKeepsMemoryCanonical : Prop :=
  ∀ s t : State, s.Inv → step s = .next t → t.Inv

/-- R37, R38, R39: the machine takes keys from the head only and never appends, and console output and notices are only
appended to: no step changes what was typed later or what was written before. -/
def Obligations.StepsOnlyTakeKeysAndAppendOutput : Prop :=
  ∀ s t : State, step s = .next t → t.kbd <:+ s.kbd ∧ s.out <+: t.out ∧ s.notes <+: t.notes

/-- R38, R39: the machine cannot read `out` or `notes`. After any other history of console output and notices, the same
step is taken and everything else comes out the same. -/
def Obligations.HistoryCannotBeRead : Prop :=
  ∀ (s t : State) (out : List Byte) (notes : List Notice), step s = .next t →
    step (s.after out notes) = .next (t.after out notes)

/-- R37, R246, R30, R257: under any parameters (`play` is at `options`), an append between two steps puts its byte at the
tail of the keyboard queue; a host abort ends a run in RUNNING without a final state, also while a step is held; a machine
in HALTED or FAULTED stays as it is whatever moves follow, but that the keyboard queue gets exactly the bytes appended, in
order, and its run has ended. -/
def Obligations.HostMovesEndOrKeepRuns : Prop :=
  (∀ (s : State) (moves : List Move), play moves s = playWith options moves s) ∧
  (∀ (o : Options) (s : State) (b : Byte) (moves : List Move),
    playWith o (.append b :: moves) s = playWith o moves (s.setKbd (s.kbd ++ [b]))) ∧
  (∀ (o : Options) (s : State) (moves : List Move), s.run = .running → playWith o (.abort :: moves) s = .aborted) ∧
  ∀ (o : Options) (s : State) (moves : List Move), s.run ≠ .running →
    playWith o moves s = .reached (s.setKbd (s.kbd ++ appendedBytes moves)) ∧
    (s.run = .halted → (playWith o moves s).ending = some .halted) ∧
    (s.run = .faulted → (playWith o moves s).ending = some .faulted)
end

