-- ==== Sys2Proof/Laws/Memory.lean ====
section
/-! SUPPORT. The laws of the memory array: read after write at the level of bytes and of words, and the canonical form
kept by every memory operation. -/

namespace Sys2Proof.Machine

/-! Reading. -/

@[simp] theorem Memory.readByte_nil (k : Nat) : Memory.readByte [] k = unlistedByte := rfl

@[simp] theorem Memory.readByte_cons (c : Host.Cell) (m : Memory) (k : Nat) :
    Memory.readByte (c :: m) k = if c.1 = k then c.2 else Memory.readByte m k := rfl

theorem Memory.readByte_absent {m : Memory} {k : Nat} (h : ∀ c ∈ m, c.1 ≠ k) : m.readByte k = unlistedByte := by
  induction m with
  | nil => rfl
  | cons c m ih =>
    rw [Memory.readByte_cons, if_neg (h c (by simp))]
    exact ih fun d hd => h d (by simp [hd])

theorem Memory.readByte_filter (m : Memory) (k k' : Nat) :
    Memory.readByte (m.filter (fun c => c.1 != k)) k' = if k' = k then unlistedByte else m.readByte k' := by
  induction m with
  | nil => simp
  | cons c m ih =>
    by_cases hc : c.1 = k
    · by_cases hk : k' = k
      · simp_all
      · simp [hc, ih, hk, Ne.symm hk]
    · by_cases hk : k' = k
      · simp_all
      · simp [hc, ih, hk]

theorem Memory.readByte_insertCell {m : Memory} {k : Nat} (v : Byte) (k' : Nat) (h : ∀ c ∈ m, c.1 ≠ k) :
    (Memory.insertCell k v m).readByte k' = if k' = k then v else m.readByte k' := by
  induction m with
  | nil => simp [Memory.insertCell, eq_comm]
  | cons c m ih =>
    have hc : c.1 ≠ k := h c (by simp)
    have ih := ih fun d hd => h d (by simp [hd])
    unfold Memory.insertCell
    split
    · simp [eq_comm]
    · rw [Memory.readByte_cons, ih, Memory.readByte_cons]
      by_cases hk : k' = k
      · simp [hk, hc]
      · simp [hk]

/-- Read after write, for bytes, at any key of any memory. -/
theorem Memory.readByte_writeByte (m : Memory) (k : Nat) (v : Byte) (k' : Nat) :
    (m.writeByte k v).readByte k' = if k' = k then v else m.readByte k' := by
  unfold Memory.writeByte
  split
  · next hv => rw [Memory.readByte_filter, hv]
  · rw [Memory.readByte_insertCell v k' (by simp), Memory.readByte_filter]
    split <;> rfl

/-- A word is its two bytes. -/
theorem word_halves (v : Word) : v.extractLsb' 8 8 ++ v.extractLsb' 0 8 = v := by
  ext i hi
  simp only [BitVec.getElem_append, BitVec.getElem_extractLsb']
  by_cases h : i < 8
  · simp [h, BitVec.getLsbD_eq_getElem, hi]
  · have : 8 + (i - 8) = i := by omega
    simp [h, this, BitVec.getLsbD_eq_getElem, hi]

theorem highKey_ne_lowKey (a b : Word) : highKey a ≠ lowKey b := by
  unfold highKey lowKey
  omega

theorem highKey_inj {a b : Word} : highKey a = highKey b ↔ a = b := by
  unfold highKey
  rw [BitVec.toNat_eq]
  omega

theorem lowKey_inj {a b : Word} : lowKey a = lowKey b ↔ a = b := by
  unfold lowKey
  rw [BitVec.toNat_eq]
  omega

/-- What a word write leaves in each byte. -/
theorem Memory.readByte_writeWord (m : Memory) (a v : Word) (k : Nat) :
    (m.writeWord a v).readByte k =
      if k = lowKey a then v.extractLsb' 0 8 else if k = highKey a then v.extractLsb' 8 8 else m.readByte k := by
  simp only [Memory.writeWord, Memory.readByte_writeByte]

/-- Read after write, for words, at any address of any memory. -/
theorem Memory.readWord_writeWord (m : Memory) (a v b : Word) :
    (m.writeWord a v).readWord b = if b = a then v else m.readWord b := by
  unfold Memory.readWord
  simp only [Memory.readByte_writeWord, highKey_inj, lowKey_inj, highKey_ne_lowKey, (highKey_ne_lowKey _ _).symm,
    if_false]
  split
  · exact word_halves v
  · rfl

@[simp] theorem Memory.readWord_writeWord_same (m : Memory) (a v : Word) : (m.writeWord a v).readWord a = v := by
  simp [Memory.readWord_writeWord]

theorem Memory.readWord_writeWord_ne (m : Memory) {a b : Word} (v : Word) (h : b ≠ a) :
    (m.writeWord a v).readWord b = m.readWord b := by
  simp [Memory.readWord_writeWord, h]

/-! The canonical form. -/

theorem Memory.rising_filter {m : Memory} (p : Host.Cell → Bool) (h : m.rising = true) :
    Memory.rising (m.filter p) = true := by
  induction m with
  | nil => rfl
  | cons c m ih =>
    simp only [Memory.rising, Bool.and_eq_true, List.all_eq_true, decide_eq_true_eq] at h
    have ih := ih h.2
    by_cases hp : p c
    · simp only [List.filter_cons, hp, if_true, Memory.rising, Bool.and_eq_true, List.all_eq_true, decide_eq_true_eq]
      exact ⟨fun d hd => h.1 d (List.mem_filter.1 hd).1, ih⟩
    · simpa [List.filter_cons, hp] using ih

theorem Memory.mem_insertCell {m : Memory} {k : Nat} {v : Byte} {c : Host.Cell} :
    c ∈ Memory.insertCell k v m ↔ c = (k, v) ∨ c ∈ m := by
  induction m with
  | nil => simp [Memory.insertCell]
  | cons d m ih =>
    unfold Memory.insertCell
    split
    · simp
    · simp only [List.mem_cons, ih]
      tauto

theorem Memory.rising_insertCell {m : Memory} {k : Nat} (v : Byte) (h : m.rising = true) (hk : ∀ c ∈ m, c.1 ≠ k) :
    (Memory.insertCell k v m).rising = true := by
  induction m with
  | nil => rfl
  | cons c m ih =>
    simp only [Memory.rising, Bool.and_eq_true, List.all_eq_true, decide_eq_true_eq] at h
    have ih := ih h.2 fun d hd => hk d (by simp [hd])
    have hc : c.1 ≠ k := hk c (by simp)
    unfold Memory.insertCell
    split
    · next hlt =>
      simp only [Memory.rising, Bool.and_eq_true, List.all_eq_true, decide_eq_true_eq, List.mem_cons]
      refine ⟨?_, h⟩
      rintro d (rfl | hd)
      · exact hlt
      · exact lt_trans hlt (h.1 d hd)
    · next hlt =>
      simp only [Memory.rising, Bool.and_eq_true, List.all_eq_true, decide_eq_true_eq]
      refine ⟨fun d hd => ?_, ih⟩
      rcases Memory.mem_insertCell.1 hd with rfl | hd
      · show c.1 < k
        omega
      · exact h.1 d hd

theorem Memory.wf_iff {m : Memory} :
    m.wf = true ↔ m.rising = true ∧ ∀ c ∈ m, c.1 < memoryKeys ∧ c.2 ≠ unlistedByte := by
  simp [Memory.wf]

/-- A byte write inside the array keeps the canonical form. -/
theorem Memory.wf_writeByte {m : Memory} (h : m.wf = true) {k : Nat} (hk : k < memoryKeys) (v : Byte) :
    (m.writeByte k v).wf = true := by
  rw [Memory.wf_iff] at h ⊢
  unfold Memory.writeByte
  split
  · exact ⟨Memory.rising_filter _ h.1, fun c hc => h.2 c (List.mem_filter.1 hc).1⟩
  · next hv =>
    refine ⟨Memory.rising_insertCell v (Memory.rising_filter _ h.1) (by simp), fun c hc => ?_⟩
    rcases Memory.mem_insertCell.1 hc with rfl | hc
    · exact ⟨hk, hv⟩
    · exact h.2 c (List.mem_filter.1 hc).1

/-- A word write keeps the canonical form. -/
theorem Memory.wf_writeWord {m : Memory} (h : m.wf = true) (a v : Word) : (m.writeWord a v).wf = true := by
  have ha := a.isLt
  refine Memory.wf_writeByte (Memory.wf_writeByte h ?_ _) ?_ _ <;> simp only [highKey, lowKey, memoryKeys] <;> omega

end Sys2Proof.Machine
end

