-- ==== Sys2Proof/Laws/State.lean ====
section
/-! SUPPORT. What each update of the state does to each field: the simp set of the state. -/

namespace Sys2Proof.Machine

variable (s : State)

/-! Registers. -/

@[simp] theorem State.reg_setReg_same (r : Reg) (v : Word) : (s.setReg r v).reg r = v := by
  simp [State.reg, State.setReg, Vector.get_eq_getElem]

theorem State.reg_setReg (r r' : Reg) (v : Word) : (s.setReg r v).reg r' = if r = r' then v else s.reg r' := by
  simp [State.reg, State.setReg, Vector.get_eq_getElem, Vector.getElem_set, Fin.ext_iff]

@[simp] theorem State.reg_setReg_ne {r r' : Reg} (v : Word) (h : r' ≠ r) : (s.setReg r v).reg r' = s.reg r' := by
  simp [State.reg_setReg, Ne.symm h]

/-- Two states are equal when every register and every other field are. -/
theorem State.ext_reg {s t : State} (hr : ∀ r, s.reg r = t.reg r) (hp : s.pc = t.pc) (hc : s.cc = t.cc)
    (hn : s.run = t.run) (hm : s.mem = t.mem) (hk : s.kbd = t.kbd) (ho : s.out = t.out) (hs : s.notes = t.notes) :
    s = t := by
  have hv : s.regs = t.regs := Vector.ext fun i hi => hr ⟨i, hi⟩
  cases s
  cases t
  simp_all

@[simp] theorem State.reg_setPc (t : Word) (i : Reg) : (s.setPc t).reg i = s.reg i := rfl
@[simp] theorem State.reg_setCc (c : ConditionCode) (i : Reg) : (s.setCc c).reg i = s.reg i := rfl
@[simp] theorem State.reg_setRun (r : RunState) (i : Reg) : (s.setRun r).reg i = s.reg i := rfl
@[simp] theorem State.reg_setMem (m : Memory) (i : Reg) : (s.setMem m).reg i = s.reg i := rfl
@[simp] theorem State.reg_setKbd (k : List Byte) (i : Reg) : (s.setKbd k).reg i = s.reg i := rfl
@[simp] theorem State.reg_emit (bs : List Byte) (i : Reg) : (s.emit bs).reg i = s.reg i := rfl
@[simp] theorem State.reg_notice (k : Notice) (i : Reg) : (s.notice k).reg i = s.reg i := rfl

/-! The other fields. -/

@[simp] theorem State.pc_setReg (r : Reg) (v : Word) : (s.setReg r v).pc = s.pc := rfl
@[simp] theorem State.cc_setReg (r : Reg) (v : Word) : (s.setReg r v).cc = s.cc := rfl
@[simp] theorem State.run_setReg (r : Reg) (v : Word) : (s.setReg r v).run = s.run := rfl
@[simp] theorem State.mem_setReg (r : Reg) (v : Word) : (s.setReg r v).mem = s.mem := rfl
@[simp] theorem State.kbd_setReg (r : Reg) (v : Word) : (s.setReg r v).kbd = s.kbd := rfl
@[simp] theorem State.out_setReg (r : Reg) (v : Word) : (s.setReg r v).out = s.out := rfl
@[simp] theorem State.notes_setReg (r : Reg) (v : Word) : (s.setReg r v).notes = s.notes := rfl

@[simp] theorem State.pc_setPc (t : Word) : (s.setPc t).pc = t := rfl
@[simp] theorem State.cc_setPc (t : Word) : (s.setPc t).cc = s.cc := rfl
@[simp] theorem State.run_setPc (t : Word) : (s.setPc t).run = s.run := rfl
@[simp] theorem State.mem_setPc (t : Word) : (s.setPc t).mem = s.mem := rfl
@[simp] theorem State.kbd_setPc (t : Word) : (s.setPc t).kbd = s.kbd := rfl
@[simp] theorem State.out_setPc (t : Word) : (s.setPc t).out = s.out := rfl
@[simp] theorem State.notes_setPc (t : Word) : (s.setPc t).notes = s.notes := rfl

@[simp] theorem State.pc_setCc (c : ConditionCode) : (s.setCc c).pc = s.pc := rfl
@[simp] theorem State.cc_setCc (c : ConditionCode) : (s.setCc c).cc = c := rfl
@[simp] theorem State.run_setCc (c : ConditionCode) : (s.setCc c).run = s.run := rfl
@[simp] theorem State.mem_setCc (c : ConditionCode) : (s.setCc c).mem = s.mem := rfl
@[simp] theorem State.kbd_setCc (c : ConditionCode) : (s.setCc c).kbd = s.kbd := rfl
@[simp] theorem State.out_setCc (c : ConditionCode) : (s.setCc c).out = s.out := rfl
@[simp] theorem State.notes_setCc (c : ConditionCode) : (s.setCc c).notes = s.notes := rfl

@[simp] theorem State.pc_setRun (r : RunState) : (s.setRun r).pc = s.pc := rfl
@[simp] theorem State.cc_setRun (r : RunState) : (s.setRun r).cc = s.cc := rfl
@[simp] theorem State.run_setRun (r : RunState) : (s.setRun r).run = r := rfl
@[simp] theorem State.mem_setRun (r : RunState) : (s.setRun r).mem = s.mem := rfl
@[simp] theorem State.kbd_setRun (r : RunState) : (s.setRun r).kbd = s.kbd := rfl
@[simp] theorem State.out_setRun (r : RunState) : (s.setRun r).out = s.out := rfl
@[simp] theorem State.notes_setRun (r : RunState) : (s.setRun r).notes = s.notes := rfl

@[simp] theorem State.pc_setMem (m : Memory) : (s.setMem m).pc = s.pc := rfl
@[simp] theorem State.cc_setMem (m : Memory) : (s.setMem m).cc = s.cc := rfl
@[simp] theorem State.run_setMem (m : Memory) : (s.setMem m).run = s.run := rfl
@[simp] theorem State.mem_setMem (m : Memory) : (s.setMem m).mem = m := rfl
@[simp] theorem State.kbd_setMem (m : Memory) : (s.setMem m).kbd = s.kbd := rfl
@[simp] theorem State.out_setMem (m : Memory) : (s.setMem m).out = s.out := rfl
@[simp] theorem State.notes_setMem (m : Memory) : (s.setMem m).notes = s.notes := rfl

@[simp] theorem State.pc_setKbd (k : List Byte) : (s.setKbd k).pc = s.pc := rfl
@[simp] theorem State.cc_setKbd (k : List Byte) : (s.setKbd k).cc = s.cc := rfl
@[simp] theorem State.run_setKbd (k : List Byte) : (s.setKbd k).run = s.run := rfl
@[simp] theorem State.mem_setKbd (k : List Byte) : (s.setKbd k).mem = s.mem := rfl
@[simp] theorem State.kbd_setKbd (k : List Byte) : (s.setKbd k).kbd = k := rfl
@[simp] theorem State.out_setKbd (k : List Byte) : (s.setKbd k).out = s.out := rfl
@[simp] theorem State.notes_setKbd (k : List Byte) : (s.setKbd k).notes = s.notes := rfl

@[simp] theorem State.pc_emit (bs : List Byte) : (s.emit bs).pc = s.pc := rfl
@[simp] theorem State.cc_emit (bs : List Byte) : (s.emit bs).cc = s.cc := rfl
@[simp] theorem State.run_emit (bs : List Byte) : (s.emit bs).run = s.run := rfl
@[simp] theorem State.mem_emit (bs : List Byte) : (s.emit bs).mem = s.mem := rfl
@[simp] theorem State.kbd_emit (bs : List Byte) : (s.emit bs).kbd = s.kbd := rfl
@[simp] theorem State.out_emit (bs : List Byte) : (s.emit bs).out = s.out ++ bs := rfl
@[simp] theorem State.notes_emit (bs : List Byte) : (s.emit bs).notes = s.notes := rfl

@[simp] theorem State.emit_nil : s.emit [] = s := by simp [State.emit]

@[simp] theorem State.emit_emit (bs cs : List Byte) : (s.emit bs).emit cs = s.emit (bs ++ cs) := by simp [State.emit]

@[simp] theorem State.pc_notice (k : Notice) : (s.notice k).pc = s.pc := rfl
@[simp] theorem State.cc_notice (k : Notice) : (s.notice k).cc = s.cc := rfl
@[simp] theorem State.run_notice (k : Notice) : (s.notice k).run = s.run := rfl
@[simp] theorem State.mem_notice (k : Notice) : (s.notice k).mem = s.mem := rfl
@[simp] theorem State.kbd_notice (k : Notice) : (s.notice k).kbd = s.kbd := rfl
@[simp] theorem State.out_notice (k : Notice) : (s.notice k).out = s.out := rfl
@[simp] theorem State.notes_notice (k : Notice) : (s.notice k).notes = s.notes ++ [k] := rfl

end Sys2Proof.Machine
end

