-- ==== Sys2Proof/Laws/Ops.lean ====
section
/-! SUPPORT. One lemma per shared operation: what it leaves in each field, and what it can do when it answers a next
state. -/

namespace Sys2Proof.Machine

variable (s : State)

/-! The write of a destination register, and the link. -/

@[simp] theorem State.reg_writeDest_same (dr : Reg) (v : Word) : (s.writeDest dr v).reg dr = v := by
  simp [State.writeDest, State.setccFrom]

theorem State.reg_writeDest_ne {dr r : Reg} (v : Word) (h : r ≠ dr) : (s.writeDest dr v).reg r = s.reg r := by
  simp [State.writeDest, State.setccFrom, h]

@[simp] theorem State.cc_writeDest (dr : Reg) (v : Word) : (s.writeDest dr v).cc = classify v := by
  simp [State.writeDest, State.setccFrom]

@[simp] theorem State.pc_writeDest (dr : Reg) (v : Word) : (s.writeDest dr v).pc = s.pc := rfl
@[simp] theorem State.run_writeDest (dr : Reg) (v : Word) : (s.writeDest dr v).run = s.run := rfl
@[simp] theorem State.mem_writeDest (dr : Reg) (v : Word) : (s.writeDest dr v).mem = s.mem := rfl
@[simp] theorem State.kbd_writeDest (dr : Reg) (v : Word) : (s.writeDest dr v).kbd = s.kbd := rfl
@[simp] theorem State.out_writeDest (dr : Reg) (v : Word) : (s.writeDest dr v).out = s.out := rfl
@[simp] theorem State.notes_writeDest (dr : Reg) (v : Word) : (s.writeDest dr v).notes = s.notes := rfl

@[simp] theorem State.reg_link_same : s.link.reg linkReg = s.pc := by simp [State.link]

theorem State.reg_link_ne {r : Reg} (h : r ≠ linkReg) : s.link.reg r = s.reg r := by simp [State.link, h]

@[simp] theorem State.pc_link : s.link.pc = s.pc := rfl
@[simp] theorem State.run_link : s.link.run = s.run := rfl
@[simp] theorem State.mem_link : s.link.mem = s.mem := rfl
@[simp] theorem State.kbd_link : s.link.kbd = s.kbd := rfl
@[simp] theorem State.out_link : s.link.out = s.out := rfl
@[simp] theorem State.notes_link : s.link.notes = s.notes := rfl
@[simp] theorem State.cc_link : s.link.cc = s.cc := rfl

/-! The poll and the bus read. -/

theorem State.kbdTake_nil {s : State} (h : s.kbd = []) : s.kbdTake = none := by simp [State.kbdTake, h]

theorem State.kbdTake_cons {s : State} {b : Byte} {rest : List Byte} (h : s.kbd = b :: rest) :
    s.kbdTake = some (b, s.setKbd rest) := by simp [State.kbdTake, h]

/-- An unsuccessful poll. -/
theorem State.poll_nil {s : State} (h : s.kbd = []) : s.poll = s.setMem (s.mem.writeWord params.kbsrAddr 0) := by
  simp [State.poll, State.kbdTake_nil h]

/-- A successful poll. -/
theorem State.poll_cons {s : State} {b : Byte} {rest : List Byte} (h : s.kbd = b :: rest) :
    s.poll = (s.setKbd rest).setMem
      ((s.mem.writeWord params.kbsrAddr params.kbsrReady).writeWord params.kbdrAddr (zext b)) := by
  simp [State.poll, State.kbdTake_cons h]

theorem params_kbsr_ne_kbdr : params.kbsrAddr ≠ params.kbdrAddr := by decide

@[simp] theorem State.reg_poll (r : Reg) : s.poll.reg r = s.reg r := by
  cases h : s.kbd with
  | nil => simp [State.poll_nil h]
  | cons b rest => simp [State.poll_cons h]

@[simp] theorem State.pc_poll : s.poll.pc = s.pc := by
  cases h : s.kbd with
  | nil => simp [State.poll_nil h]
  | cons b rest => simp [State.poll_cons h]

@[simp] theorem State.cc_poll : s.poll.cc = s.cc := by
  cases h : s.kbd with
  | nil => simp [State.poll_nil h]
  | cons b rest => simp [State.poll_cons h]

@[simp] theorem State.run_poll : s.poll.run = s.run := by
  cases h : s.kbd with
  | nil => simp [State.poll_nil h]
  | cons b rest => simp [State.poll_cons h]

@[simp] theorem State.out_poll : s.poll.out = s.out := by
  cases h : s.kbd with
  | nil => simp [State.poll_nil h]
  | cons b rest => simp [State.poll_cons h]

@[simp] theorem State.notes_poll : s.poll.notes = s.notes := by
  cases h : s.kbd with
  | nil => simp [State.poll_nil h]
  | cons b rest => simp [State.poll_cons h]


@[simp] theorem reg_readEffect (a : Word) (r : Reg) : (readEffect a s).reg r = s.reg r := by
  unfold readEffect; split <;> simp

@[simp] theorem pc_readEffect (a : Word) : (readEffect a s).pc = s.pc := by
  unfold readEffect; split <;> simp

@[simp] theorem cc_readEffect (a : Word) : (readEffect a s).cc = s.cc := by
  unfold readEffect; split <;> simp

@[simp] theorem run_readEffect (a : Word) : (readEffect a s).run = s.run := by
  unfold readEffect; split <;> simp

@[simp] theorem out_readEffect (a : Word) : (readEffect a s).out = s.out := by
  unfold readEffect; split <;> simp

@[simp] theorem notes_readEffect (a : Word) : (readEffect a s).notes = s.notes := by
  unfold readEffect; split <;> simp

theorem readEffect_ordinary {a : Word} (h : a ≠ params.kbsrAddr) : readEffect a s = s := by simp [readEffect, h]

@[simp] theorem readEffect_status : readEffect params.kbsrAddr s = s.poll := by simp [readEffect]

@[simp] theorem memRead_snd (a : Word) : (memRead a s).2 = readEffect a s := rfl

theorem memRead_ordinary {a : Word} (h : a ≠ params.kbsrAddr) : (memRead a s).1 = s.mem.readWord a := by
  simp [memRead, readEffect_ordinary s h]

/-- With no key waiting, the status address reads as zero. -/
theorem memRead_status_nil {s : State} (h : s.kbd = []) : (memRead params.kbsrAddr s).1 = 0 := by
  simp [memRead, State.poll_nil h]

/-- With a key waiting, the status address reads as ready. -/
theorem memRead_status_cons {s : State} {b : Byte} {rest : List Byte} (h : s.kbd = b :: rest) :
    (memRead params.kbsrAddr s).1 = params.kbsrReady := by
  simp [memRead, State.poll_cons h, Memory.readWord_writeWord, params_kbsr_ne_kbdr]

/-- A bus read takes at most the head of the queue. -/
theorem kbd_readEffect_suffix (a : Word) : (readEffect a s).kbd <:+ s.kbd := by
  unfold readEffect
  split
  · cases h : s.kbd with
    | nil => simp [State.poll_nil h, h]
    | cons b rest => simp [State.poll_cons h]
  · exact List.suffix_refl _

theorem readByte_writeWord_other {m : Memory} {a : Word} (v : Word) {k : Nat} (h : k ≠ highKey a ∧ k ≠ lowKey a) :
    (m.writeWord a v).readByte k = m.readByte k := by
  simp [Memory.readByte_writeWord, h]

/-- A bus read writes at most the two device words. -/
theorem memory_readEffect (a : Word) : MemoryExcept [params.kbsrAddr, params.kbdrAddr] s (readEffect a s) := by
  intro k hk
  have hs := hk params.kbsrAddr (by simp)
  have hd := hk params.kbdrAddr (by simp)
  unfold readEffect
  split
  · cases h : s.kbd with
    | nil => simp [State.poll_nil h, readByte_writeWord_other _ hs]
    | cons b rest => simp [State.poll_cons h, readByte_writeWord_other _ hs, readByte_writeWord_other _ hd]
  · rfl

/-- A bus read keeps the canonical form of memory. -/
theorem wf_readEffect {s : State} (h : s.mem.wf = true) (a : Word) : (readEffect a s).mem.wf = true := by
  unfold readEffect
  split
  · cases hk : s.kbd with
    | nil => simpa [State.poll_nil hk] using Memory.wf_writeWord h _ _
    | cons b rest => simpa [State.poll_cons hk] using Memory.wf_writeWord (Memory.wf_writeWord h _ _) _ _
  · exact h

/-! Bytes kept, composed. -/

theorem MemoryExcept.refl (as : List Word) : MemoryExcept as s s := fun _ _ => rfl

theorem MemoryExcept.trans {as : List Word} {s t u : State} (h : MemoryExcept as s t) (h' : MemoryExcept as t u) :
    MemoryExcept as s u := fun k hk => (h' k hk).trans (h k hk)

theorem MemoryExcept.mono {as bs : List Word} {s t : State} (h : MemoryExcept as s t) (hs : as ⊆ bs) :
    MemoryExcept bs s t := fun k hk => h k fun a ha => hk a (hs ha)

/-- A bus write writes its word and nothing else. -/
theorem memory_memWrite (a v : Word) : MemoryExcept [a] s (memWrite a v s) := fun k hk =>
  readByte_writeWord_other v (hk a (by simp))

/-! The services. -/

/-- What a string scan can do when it answers a next state: it keeps registers, `pc`, `cc`, `run`, notices and all memory
but the device words, takes keys from the head only, appends to the console only, and keeps memory canonical. -/
theorem scanString_next {chars : Word → Option (List Byte)} {n : Nat} {a : Word} {s t : State}
    (h : scanString chars n a s = .next t) :
    (∀ r, t.reg r = s.reg r) ∧ t.pc = s.pc ∧ t.cc = s.cc ∧ t.run = s.run ∧ t.notes = s.notes ∧ t.kbd <:+ s.kbd ∧
      s.out <+: t.out ∧ MemoryExcept [params.kbsrAddr, params.kbdrAddr] s t ∧
      (s.mem.wf = true → t.mem.wf = true) := by
  induction n generalizing a s with
  | zero => simp [scanString] at h
  | succ n ih =>
    unfold scanString at h
    split at h
    · obtain rfl : readEffect a s = t := by simpa [trapReturn] using h
      exact ⟨by simp, by simp, by simp, by simp, by simp, kbd_readEffect_suffix s a, by simp, memory_readEffect s a,
        fun hw => wf_readEffect hw a⟩
    · split at h
      · simp at h
      · next bs _ =>
        obtain ⟨hr, hp, hc, hn, ho, hk, hout, hm, hw⟩ := ih h
        refine ⟨by simpa using hr, by simpa using hp, by simpa using hc, by simpa using hn, by simpa using ho, ?_, ?_, ?_,
          fun h => hw (wf_readEffect h a)⟩
        · exact hk.trans (by simpa using kbd_readEffect_suffix s a)
        · exact (List.prefix_append s.out bs).trans (by simpa using hout)
        · exact (memory_readEffect s a).trans (by simpa [MemoryExcept] using hm)

/-! What a bus read reads does not depend on the console or on R7. -/

@[simp] theorem readEffect_emit (a : Word) (bs : List Byte) : readEffect a (s.emit bs) = (readEffect a s).emit bs := by
  unfold readEffect
  split
  · cases h : s.kbd with
    | nil => rw [State.poll_nil h, State.poll_nil (by simpa using h)]; rfl
    | cons b rest => rw [State.poll_cons h, State.poll_cons (by simpa using h)]; rfl
  · rfl

@[simp] theorem readEffect_link (a : Word) : readEffect a s.link = (readEffect a s).link := by
  unfold readEffect
  split
  · cases h : s.kbd with
    | nil => rw [State.poll_nil h, State.poll_nil (by simpa using h)]; rfl
    | cons b rest => rw [State.poll_cons h, State.poll_cons (by simpa using h)]; rfl
  · rfl

theorem memRead_fst_emit (a : Word) (bs : List Byte) : (memRead a (s.emit bs)).1 = (memRead a s).1 := by
  simp [memRead]

theorem memRead_fst_link (a : Word) : (memRead a s.link).1 = (memRead a s).1 := by simp [memRead]

theorem ScanReads.emit {ws : List Word} {a : Word} {s u : State} (h : ScanReads a ws s u) (bs : List Byte) :
    ScanReads a ws (s.emit bs) (u.emit bs) := by
  induction ws generalizing a s with
  | nil => exact ⟨by rw [memRead_fst_emit]; exact h.1, by rw [h.2]; simp⟩
  | cons w ws ih => exact ⟨by rw [memRead_fst_emit]; exact h.1, h.2.1, by simpa using ih h.2.2⟩

theorem ScanReads.link {ws : List Word} {a : Word} {s u : State} (h : ScanReads a ws s u) :
    ScanReads a ws s.link u.link := by
  induction ws generalizing a s with
  | nil => exact ⟨by rw [memRead_fst_link]; exact h.1, by rw [h.2]; simp⟩
  | cons w ws ih => exact ⟨by rw [memRead_fst_link]; exact h.1, h.2.1, by simpa using ih h.2.2⟩

/-- What a scan writes: the bytes of each nonzero word it reads, in order, on the state its reads leave. -/
theorem scanString_of_reads {chars : Word → Option (List Byte)} {f : Word → List Byte} {ws : List Word} {n : Nat}
    {a : Word} {s u : State} (h : ScanReads a ws s u) (hf : ∀ w ∈ ws, chars w = some (f w)) (hn : ws.length < n) :
    scanString chars n a s = .next (u.emit (ws.flatMap f)) := by
  induction ws generalizing n a s u with
  | nil =>
    obtain ⟨n, rfl⟩ := Nat.exists_eq_add_of_lt hn
    simp [scanString, h.1, h.2, trapReturn]
  | cons w ws ih =>
    cases n with
    | zero => simp at hn
    | succ n =>
      have hn' : ws.length < n := by simpa using hn
      have hz : (memRead a s).1 ≠ 0 := h.1 ▸ h.2.1
      unfold scanString
      rw [if_neg hz, h.1, hf w (by simp)]
      simp only
      rw [ih (h.2.2.emit (f w)) (fun v hv => hf v (by simp [hv])) hn']
      simp

/-- One step of a scan away from the status address comes one word nearer to it. -/
theorem distance_succ {a : Word} (h : a ≠ params.kbsrAddr) :
    (params.kbsrAddr - (a + 1)).toNat + 1 = (params.kbsrAddr - a).toNat := by
  have ha := a.isLt
  have hk : params.kbsrAddr.toNat = 65024 := rfl
  have h' : a.toNat ≠ 65024 := fun e => h (by rw [BitVec.toNat_eq, e, hk])
  simp only [BitVec.toNat_sub, BitVec.toNat_add, hk]
  simp
  omega

/-- Every scan ends, and its reads are fewer than the bound: the reads themselves, whatever the words write. -/
theorem scanReads_total {n : Nat} {a : Word} {s : State}
    (h : 65536 * s.kbd.length + (params.kbsrAddr - a).toNat + 1 ≤ n) : ∃ ws u, ws.length < n ∧ ScanReads a ws s u := by
  induction n generalizing a s with
  | zero => omega
  | succ n ih =>
    by_cases hz : (memRead a s).1 = 0
    · exact ⟨[], _, by simp, hz, rfl⟩
    · suffices hr : ∃ ws u, ws.length < n ∧ ScanReads (a + 1) ws (memRead a s).2 u by
        obtain ⟨ws, u, hl, hw⟩ := hr
        exact ⟨_ :: ws, u, by simpa using hl, rfl, hz, hw⟩
      apply ih
      by_cases ha : a = params.kbsrAddr
      · subst ha
        cases hk : s.kbd with
        | nil => exact absurd (memRead_status_nil hk) hz
        | cons b rest =>
          have hd : (params.kbsrAddr - (params.kbsrAddr + 1)).toNat = 65535 := by decide
          have he : (memRead params.kbsrAddr s).2.kbd = rest := by simp [State.poll_cons hk]
          rw [hk, List.length_cons] at h
          rw [hd, he]
          omega
      · have hd := distance_succ ha
        have he : (memRead a s).2.kbd = s.kbd := by simp [readEffect_ordinary s ha]
        rw [he]
        omega

/-- A scan whose words all have bytes ends: before it passes the status address once more than there are keys, it reads a
zero word (R203). So `scanHang` is never reached. -/
theorem scanString_total {chars : Word → Option (List Byte)} (hc : ∀ w, chars w ≠ none) {n : Nat} {a : Word} {s : State}
    (h : 65536 * s.kbd.length + (params.kbsrAddr - a).toNat + 1 ≤ n) : ∃ t, scanString chars n a s = .next t := by
  obtain ⟨ws, u, hl, hr⟩ := scanReads_total h
  refine ⟨_, scanString_of_reads (f := fun w => (chars w).getD []) hr (fun w _ => ?_) hl⟩
  cases hw : chars w with
  | none => exact absurd hw (hc w)
  | some bs => rfl

/-- `scanBound` is enough for a scan from any address. -/
theorem scanBound_enough (a : Word) (s : State) :
    65536 * s.link.kbd.length + (params.kbsrAddr - a).toNat + 1 ≤ scanBound s := by
  have hd := (params.kbsrAddr - a).isLt
  generalize (params.kbsrAddr - a).toNat = d at hd
  rw [State.kbd_link, scanBound]
  omega

/-- The words a scan reads, and what it leaves, are determined by where it starts. -/
theorem ScanReads.unique {ws ws' : List Word} {a : Word} {s u u' : State} (h : ScanReads a ws s u)
    (h' : ScanReads a ws' s u') : ws = ws' ∧ u = u' := by
  induction ws generalizing a s ws' with
  | nil =>
    cases ws' with
    | nil => exact ⟨rfl, h.2.trans h'.2.symm⟩
    | cons w ws' => exact absurd (h'.1.symm.trans h.1) h'.2.1
  | cons w ws ih =>
    cases ws' with
    | nil => exact absurd (h.1.symm.trans h'.1) h.2.1
    | cons w' ws' =>
      obtain ⟨rfl, hu⟩ := ih h.2.2 h'.2.2
      exact ⟨by rw [← h.1, ← h'.1], hu⟩

/-- The words of any scan are fewer than the bound. -/
theorem ScanReads.length_lt {ws : List Word} {a : Word} {s u : State} (h : ScanReads a ws s u) :
    ws.length < scanBound s := by
  obtain ⟨ws', u', hl, hr⟩ := scanReads_total (scanBound_enough a s)
  rwa [(h.link.unique hr).1]

/-- A scan that meets a word without bytes has no meaning. -/
theorem scanString_refused {chars : Word → Option (List Byte)} {ws : List Word} {n : Nat} {a : Word} {s u : State}
    (h : ScanReads a ws s u) (hf : ∃ w ∈ ws, chars w = none) (hn : ws.length < n) :
    scanString chars n a s = .refused .putsWideWord := by
  induction ws generalizing n a s u with
  | nil => simp at hf
  | cons w ws ih =>
    cases n with
    | zero => simp at hn
    | succ n =>
      have hn' : ws.length < n := by simpa using hn
      have hz : (memRead a s).1 ≠ 0 := h.1 ▸ h.2.1
      unfold scanString
      rw [if_neg hz, h.1]
      cases hw : chars w with
      | none => rfl
      | some bs => exact ih (h.2.2.emit bs) (by simpa [hw] using hf) hn'

/-- What the reads of a scan keep: registers, `pc`, `cc`, `run`, the console, the notices, and all memory but the device
words; they take keys from the head only. -/
theorem ScanReads.keeps {ws : List Word} {a : Word} {s u : State} (h : ScanReads a ws s u) :
    (∀ r, u.reg r = s.reg r) ∧ u.pc = s.pc ∧ u.cc = s.cc ∧ u.run = s.run ∧ u.out = s.out ∧ u.notes = s.notes ∧
      u.kbd <:+ s.kbd ∧ MemoryExcept [params.kbsrAddr, params.kbdrAddr] s u := by
  induction ws generalizing a s with
  | nil =>
    obtain ⟨-, rfl⟩ := h
    exact ⟨by simp, by simp, by simp, by simp, by simp, by simp, kbd_readEffect_suffix s a, memory_readEffect s a⟩
  | cons w ws ih =>
    obtain ⟨hr, hp, hc, hn, ho, hs, hk, hm⟩ := ih h.2.2
    exact ⟨by simpa using hr, by simpa using hp, by simpa using hc, by simpa using hn, by simpa using ho,
      by simpa using hs, hk.trans (kbd_readEffect_suffix s a), (memory_readEffect s a).trans hm⟩

/-- A string clear of the status address is read as it stands, and nothing changes. -/
theorem StringAt.scanReads {s : State} {ws : List Word} {a : Word} (h : StringAt s a ws) : ScanReads a ws s s := by
  induction ws generalizing a with
  | nil => exact ⟨by rw [memRead_ordinary s h.1]; exact h.2, (readEffect_ordinary s h.1).symm⟩
  | cons w ws ih =>
    exact ⟨by rw [memRead_ordinary s h.1]; exact h.2.1, h.2.2.1,
      by rw [memRead_snd, readEffect_ordinary s h.1]; exact ih h.2.2.2⟩

/-- A string that runs into the status address is read as it stands up to there. -/
theorem RunsIntoStatus.scanReads {s u : State} {ws vs : List Word} {a : Word} (h : RunsIntoStatus s a ws)
    (hv : ScanReads params.kbsrAddr vs s u) : ScanReads a (ws ++ vs) s u := by
  induction ws generalizing a with
  | nil => exact (show a = params.kbsrAddr from h) ▸ hv
  | cons w ws ih =>
    exact ⟨by rw [memRead_ordinary s h.1]; exact h.2.1, h.2.2.1,
      by rw [memRead_snd, readEffect_ordinary s h.1]; exact ih h.2.2.2⟩

/-- GETC and IN with a key waiting. -/
theorem readCharService_cons {s : State} {b : Byte} {rest : List Byte} (h : s.kbd = b :: rest) (mode : InEcho) :
    readCharService mode s =
      .next (((s.link.setKbd rest).writeDest serviceReg (zext b)).emit (if mode = .echo then [b] else [])) := by
  have ht : (trapEntry s).kbdTake = some (b, (trapEntry s).setKbd rest) := State.kbdTake_cons h
  unfold readCharService
  rw [ht]
  cases mode <;> simp [trapReturn, trapEntry, State.emit, State.writeDest, State.setccFrom, State.setCc]

/-- GETC and IN with no key waiting are held. -/
theorem readCharService_nil {s : State} (h : s.kbd = []) (mode : InEcho) : readCharService mode s = hold s := by
  have ht : (trapEntry s).kbdTake = none := State.kbdTake_nil h
  unfold readCharService
  rw [ht]

/-! The fetch and the step. -/

@[simp] theorem pc_fetch : (fetch s).2.pc = s.pc + 1 := rfl

/-- Away from the status address the fetch reads the stored word and changes `pc` only. -/
theorem fetch_ordinary {s : State} (h : s.pc ≠ params.kbsrAddr) :
    fetch s = (s.mem.readWord s.pc, s.setPc (s.pc + 1)) := by
  simp [fetch, memRead_ordinary s h, readEffect_ordinary s h]

/-! The machine under given parameters. -/

/-- `exec` is `execWith` at the values the model runs with. -/
theorem execWith_options (i : Instr) : execWith options i s = exec i s := by cases i <;> rfl

/-- `step` is `stepWith` at the values the model runs with. -/
theorem stepWith_options : stepWith options s = step s := by
  unfold stepWith step
  cases s.run with
  | running => exact execWith_options _ _
  | halted => rfl
  | faulted => rfl

theorem stepWith_running {s : State} (h : s.run = .running) (o : Options) :
    stepWith o s = execWith o (decodeWith o.opMap (fetch s).1) (fetch s).2 := by
  simp [stepWith, h]

/-- A vector that names no service runs R207's rule. -/
theorem trapWith_unknown {v : BitVec 8} (h : v ∉ serviceVectors) (o : Options) :
    trapWith o v s = unknownVector o.unknownTrapFatal v s := by
  simp [serviceVectors] at h
  simp [trapWith, h]

theorem step_running {s : State} (h : s.run = .running) : step s = exec (decode (fetch s).1) (fetch s).2 := by
  simp [step, h]

/-- A step that answers a next state started in RUNNING. -/
theorem running_of_step {s t : State} (h : step s = .next t) : s.run = .running := by
  unfold step at h
  split at h <;> simp_all

end Sys2Proof.Machine
end

