-- ==== Sys2Proof/Laws/PerInstr.lean ====
section
/-! SUPPORT. Facts proved of every instruction form, one lemma per constructor. -/

namespace Sys2Proof.Laws.OpcodeField

/-- R90, R95: bits 15:12 of an instruction's word are the opcode of its class, under any opcode map. -/
def Statement (i : Instr) : Prop := ∀ m : OpMap, fieldOp (encodeWith m i) = m.codeOf i.opClass

/-- The opcode field, read bit by bit. -/
theorem of_bits {m : OpMap} {i : Instr}
    (h : ∀ j < 4, (encodeWith m i).getLsbD (12 + j) = (m.codeOf i.opClass).getLsbD j) :
    fieldOp (encodeWith m i) = m.codeOf i.opClass := by
  apply BitVec.eq_of_getLsbD_eq
  intro j hj
  simpa only [fieldOp, BitVec.getLsbD_extractLsb', hj, decide_true, Bool.true_and] using h j hj

theorem addReg (dr sr1 sr2 : Reg) : Statement (.addReg dr sr1 sr2) := by
  refine fun m => of_bits fun j hj => ?_
  simp only [encodeWith, BitVec.getLsbD_append]
  interval_cases j <;> rfl

theorem addImm (dr sr1 : Reg) (imm5 : BitVec 5) : Statement (.addImm dr sr1 imm5) := by
  refine fun m => of_bits fun j hj => ?_
  simp only [encodeWith, BitVec.getLsbD_append]
  interval_cases j <;> rfl

theorem andReg (dr sr1 sr2 : Reg) : Statement (.andReg dr sr1 sr2) := by
  refine fun m => of_bits fun j hj => ?_
  simp only [encodeWith, BitVec.getLsbD_append]
  interval_cases j <;> rfl

theorem andImm (dr sr1 : Reg) (imm5 : BitVec 5) : Statement (.andImm dr sr1 imm5) := by
  refine fun m => of_bits fun j hj => ?_
  simp only [encodeWith, BitVec.getLsbD_append]
  interval_cases j <;> rfl

theorem not (dr sr1 : Reg) : Statement (.not dr sr1) := by
  refine fun m => of_bits fun j hj => ?_
  simp only [encodeWith, BitVec.getLsbD_append]
  interval_cases j <;> rfl

theorem br (n z p : Bool) (off9 : BitVec 9) : Statement (.br n z p off9) := by
  refine fun m => of_bits fun j hj => ?_
  simp only [encodeWith, BitVec.getLsbD_append]
  interval_cases j <;> rfl

theorem jmp (base : Reg) : Statement (.jmp base) := by
  refine fun m => of_bits fun j hj => ?_
  simp only [encodeWith, BitVec.getLsbD_append]
  interval_cases j <;> rfl

theorem jsr (off11 : BitVec 11) : Statement (.jsr off11) := by
  refine fun m => of_bits fun j hj => ?_
  simp only [encodeWith, BitVec.getLsbD_append]
  interval_cases j <;> rfl

theorem jsrr (base : Reg) : Statement (.jsrr base) := by
  refine fun m => of_bits fun j hj => ?_
  simp only [encodeWith, BitVec.getLsbD_append]
  interval_cases j <;> rfl

theorem ld (dr : Reg) (off9 : BitVec 9) : Statement (.ld dr off9) := by
  refine fun m => of_bits fun j hj => ?_
  simp only [encodeWith, BitVec.getLsbD_append]
  interval_cases j <;> rfl

theorem st (sr : Reg) (off9 : BitVec 9) : Statement (.st sr off9) := by
  refine fun m => of_bits fun j hj => ?_
  simp only [encodeWith, BitVec.getLsbD_append]
  interval_cases j <;> rfl

theorem ldi (dr : Reg) (off9 : BitVec 9) : Statement (.ldi dr off9) := by
  refine fun m => of_bits fun j hj => ?_
  simp only [encodeWith, BitVec.getLsbD_append]
  interval_cases j <;> rfl

theorem sti (sr : Reg) (off9 : BitVec 9) : Statement (.sti sr off9) := by
  refine fun m => of_bits fun j hj => ?_
  simp only [encodeWith, BitVec.getLsbD_append]
  interval_cases j <;> rfl

theorem ldr (dr base : Reg) (off6 : BitVec 6) : Statement (.ldr dr base off6) := by
  refine fun m => of_bits fun j hj => ?_
  simp only [encodeWith, BitVec.getLsbD_append]
  interval_cases j <;> rfl

theorem str (sr base : Reg) (off6 : BitVec 6) : Statement (.str sr base off6) := by
  refine fun m => of_bits fun j hj => ?_
  simp only [encodeWith, BitVec.getLsbD_append]
  interval_cases j <;> rfl

theorem lea (dr : Reg) (off9 : BitVec 9) : Statement (.lea dr off9) := by
  refine fun m => of_bits fun j hj => ?_
  simp only [encodeWith, BitVec.getLsbD_append]
  interval_cases j <;> rfl

theorem trap (vect8 : BitVec 8) : Statement (.trap vect8) := by
  refine fun m => of_bits fun j hj => ?_
  simp only [encodeWith, trapWord, BitVec.getLsbD_append]
  interval_cases j <;> rfl

theorem trapGetc : Statement (.trapGetc) := by
  refine fun m => of_bits fun j hj => ?_
  simp only [encodeWith, trapWord, BitVec.getLsbD_append]
  interval_cases j <;> rfl

theorem trapOut : Statement (.trapOut) := by
  refine fun m => of_bits fun j hj => ?_
  simp only [encodeWith, trapWord, BitVec.getLsbD_append]
  interval_cases j <;> rfl

theorem trapPuts : Statement (.trapPuts) := by
  refine fun m => of_bits fun j hj => ?_
  simp only [encodeWith, trapWord, BitVec.getLsbD_append]
  interval_cases j <;> rfl

theorem trapIn : Statement (.trapIn) := by
  refine fun m => of_bits fun j hj => ?_
  simp only [encodeWith, trapWord, BitVec.getLsbD_append]
  interval_cases j <;> rfl

theorem trapPutsp : Statement (.trapPutsp) := by
  refine fun m => of_bits fun j hj => ?_
  simp only [encodeWith, trapWord, BitVec.getLsbD_append]
  interval_cases j <;> rfl

theorem trapHalt : Statement (.trapHalt) := by
  refine fun m => of_bits fun j hj => ?_
  simp only [encodeWith, trapWord, BitVec.getLsbD_append]
  interval_cases j <;> rfl

theorem rti : Statement (.rti) := by
  refine fun m => of_bits fun j hj => ?_
  simp only [encodeWith, BitVec.getLsbD_append]
  interval_cases j <;> rfl

theorem reserved : Statement (.reserved) := by
  refine fun m => of_bits fun j hj => ?_
  simp only [encodeWith, BitVec.getLsbD_append]
  interval_cases j <;> rfl

end Sys2Proof.Laws.OpcodeField
end

