-- ==== Sys2Proof/Tests/Slice0.lean ====
section
/-! SUPPORT. Small tests. Expected results are those of spec/95_test_vectors.md (the vector's id in the comment) or of the
rule named; words are written out bit by bit from 30_encoding.md R94 and R96. Then one witness per statement that has
hypotheses: a concrete input that meets them. -/

namespace Sys2Proof.Tests

open Sys2Proof Sys2Proof.Machine

/-! Well-formedness: the one check, and the six vectors it refuses. -/

theorem test_wellFormed_refuses_service_vectors :
    (Instr.trap 0x20#8).wellFormed = false ∧ (Instr.trap 0x21#8).wellFormed = false ∧
    (Instr.trap 0x22#8).wellFormed = false ∧ (Instr.trap 0x23#8).wellFormed = false ∧
    (Instr.trap 0x24#8).wellFormed = false ∧ (Instr.trap 0x25#8).wellFormed = false := by decide

theorem test_wellFormed_accepts_other_vectors :
    (Instr.trap 0x1F#8).wellFormed = true ∧ (Instr.trap 0x26#8).wellFormed = true := by decide

/-! Decoding, one word for every constructor. -/

theorem test_decode_operate :
    decode (0b0001#4 ++ 0b010#3 ++ 0b011#3 ++ 0b0#1 ++ 0b00#2 ++ 0b100#3) = .addReg 2 3 4 ∧
    decode (0b0001#4 ++ 0b000#3 ++ 0b001#3 ++ 0b1#1 ++ 0b10000#5) = .addImm 0 1 0b10000#5 ∧
    decode (0b0101#4 ++ 0b010#3 ++ 0b011#3 ++ 0b0#1 ++ 0b11#2 ++ 0b100#3) = .andReg 2 3 4 ∧
    decode (0b0101#4 ++ 0b001#3 ++ 0b010#3 ++ 0b1#1 ++ 0b01111#5) = .andImm 1 2 0b01111#5 ∧
    decode (0b1001#4 ++ 0b001#3 ++ 0b010#3 ++ 0b111111#6) = .not 1 2 := by decide

theorem test_decode_control :
    decode (0b0000#4 ++ 0b1#1 ++ 0b0#1 ++ 0b0#1 ++ 0b111111101#9) = .br true false false 0x1FD#9 ∧
    decode (0b0000#4 ++ 0b0#1 ++ 0b1#1 ++ 0b0#1 ++ 0b000000010#9) = .br false true false 0x002#9 ∧
    decode (0b1100#4 ++ 0b000#3 ++ 0b111#3 ++ 0b000000#6) = .jmp 7 ∧
    decode (0b0100#4 ++ 0b1#1 ++ 0b10000000000#11) = .jsr 0x400#11 ∧
    decode (0b0100#4 ++ 0b0#1 ++ 0b11#2 ++ 0b011#3 ++ 0b111111#6) = .jsrr 3 := by decide

theorem test_decode_load_store :
    decode (0b0010#4 ++ 0b001#3 ++ 0b000000010#9) = .ld 1 0x002#9 ∧
    decode (0b0011#4 ++ 0b001#3 ++ 0b111111111#9) = .st 1 0x1FF#9 ∧
    decode (0b1010#4 ++ 0b010#3 ++ 0b000000001#9) = .ldi 2 0x001#9 ∧
    decode (0b1011#4 ++ 0b010#3 ++ 0b000000001#9) = .sti 2 0x001#9 ∧
    decode (0b0110#4 ++ 0b001#3 ++ 0b010#3 ++ 0b111111#6) = .ldr 1 2 0b111111#6 ∧
    decode (0b0111#4 ++ 0b001#3 ++ 0b010#3 ++ 0b100000#6) = .str 1 2 0b100000#6 ∧
    decode (0b1110#4 ++ 0b110#3 ++ 0b000000111#9) = .lea 6 0x007#9 := by decide

theorem test_decode_trap_and_unused :
    decode (0b1111#4 ++ 0b0000#4 ++ 0x20#8) = .trapGetc ∧ decode (0b1111#4 ++ 0b1111#4 ++ 0x21#8) = .trapOut ∧
    decode (0b1111#4 ++ 0b0000#4 ++ 0x22#8) = .trapPuts ∧ decode (0b1111#4 ++ 0b0000#4 ++ 0x23#8) = .trapIn ∧
    decode (0b1111#4 ++ 0b0000#4 ++ 0x24#8) = .trapPutsp ∧ decode (0b1111#4 ++ 0b1111#4 ++ 0x25#8) = .trapHalt ∧
    decode (0b1111#4 ++ 0b0000#4 ++ 0x26#8) = .trap 0x26#8 ∧
    decode (0b1000#4 ++ 0b111111111111#12) = .rti ∧ decode (0b1101#4 ++ 0b000000000000#12) = .reserved := by decide

theorem test_decodeTableWord :
    decodeTableWord 16 0x1261 = some (.addImm 1 1 0b00001#5) ∧ decodeTableWord 24 0 = none := by decide

theorem test_decodeBytes :
    decodeBytes [0xF0#8, 0x25#8, 0xAA#8] = .ok (.trapHalt, [0xAA#8]) ∧ decodeBytes [0xF0#8] = .error .truncated := by
  constructor <;> rfl

theorem test_encode :
    encode (.addReg 2 3 4) = 0x14C4#16 ∧ encode (.not 1 2) = 0x92BF#16 ∧ encode (.jmp 7) = 0xC1C0#16 ∧
    encode (.jsr 0x002#11) = 0x4802#16 ∧ encode .trapPutsp = 0xF024#16 := by decide

/-! One step. -/

/-- A state at `pc` with some registers and memory words set, everything else as after reset. -/
def state (pc : Word) (cc : ConditionCode) (regs : List (Reg × Word)) (mem : List (Word × Word)) (kbd : List Byte) :
    State :=
  let s := ((State.reset.setPc pc).setCc cc).setKbd kbd
  let s := regs.foldl (fun s x => s.setReg x.1 x.2) s
  s.setMem (mem.foldl (fun m x => m.writeWord x.1 x.2) s.mem)

/-- The state after one step. -/
def next (s : State) : Option State :=
  match step s with
  | .next t => some t
  | .fault _ => none
  | .refused _ => none

/-- What a test looks at after the step that runs the word `w`. -/
def after {α : Type} (w : Nat) (s : State) (look : State → α) : Option α := (next (s.withFetchWord 16 w)).map look

/-- V-ADD-3. -/
theorem test_add_register :
    after 0x14C4 (state 0x3000 .P [(3, 0x8000), (4, 0x8000)] [] []) (fun t => (t.pc, t.reg 2, t.cc)) =
      some (0x3001, 0x0000, .Z) := by decide

/-- V-ADD-5. -/
theorem test_add_immediate :
    after 0x1030 (state 0x3000 .Z [(0, 0x0005)] [] []) (fun t => (t.pc, t.reg 0, t.cc)) =
      some (0x3001, 0xFFF5, .N) := by decide

/-- V-AND-2. -/
theorem test_and_register :
    after 0x54C4 (state 0x3000 .Z [(3, 0xFF0F), (4, 0x0FF0)] [] []) (fun t => (t.pc, t.reg 2, t.cc)) =
      some (0x3001, 0x0F00, .P) := by decide

/-- V-AND-5. -/
theorem test_and_immediate :
    after 0x52B0 (state 0x3000 .P [(2, 0xABCD)] [] []) (fun t => (t.pc, t.reg 1, t.cc)) =
      some (0x3001, 0xABC0, .N) := by decide

/-- V-NOT-1. -/
theorem test_not :
    after 0x92BF (state 0x3000 .Z [(2, 0x00FF)] [] []) (fun t => (t.pc, t.reg 1, t.cc)) =
      some (0x3001, 0xFF00, .N) := by decide

/-- V-BR-3P and V-BR-3N. -/
theorem test_br_negative_offset :
    after 0x0300 (state 0x3000 .P [] [] []) (fun t => (t.pc, t.cc)) = some (0x2F01, .P) ∧
    after 0x0300 (state 0x3000 .N [] [] []) (fun t => (t.pc, t.cc)) = some (0x3001, .N) := by decide

/-- V-BR-9: the target wraps. -/
theorem test_br_wraps :
    after 0x0EFF (state 0xFFFF .P [] [] []) (fun t => t.pc) = some 0x00FF := by decide

/-- V-JMP-3. -/
theorem test_jmp :
    after 0xCEBF (state 0x3000 .P [(2, 0x0000)] [] []) (fun t => (t.pc, t.cc)) = some (0x0000, .P) := by decide

/-- V-JSR-2. -/
theorem test_jsr :
    after 0x4C00 (state 0x3000 .N [] [] []) (fun t => (t.pc, t.reg 7, t.cc)) = some (0x2C01, 0x3001, .N) := by decide

/-- V-JSRR-1. -/
theorem test_jsrr :
    after 0x40C0 (state 0x3010 .N [(3, 0x4000)] [] []) (fun t => (t.pc, t.reg 7)) = some (0x4000, 0x3011) := by decide

/-- V-JSRR-2. -/
theorem test_jsrr_through_link :
    after 0x41C0 (state 0x3010 .Z [(7, 0x5000)] [] []) (fun t => (t.pc, t.reg 7)) = some (0x3011, 0x3011) := by decide

/-- V-LD-5: the address wraps. -/
theorem test_ld_wraps :
    after 0x22FF (state 0xFF80 .Z [] [(0x0080, 0x7FFF)] []) (fun t => (t.pc, t.reg 1, t.cc)) =
      some (0xFF81, 0x7FFF, .P) := by decide

/-- V-LD-6: a load from the status address polls. -/
theorem test_ld_polls :
    after 0x2000 (state 0xFDFF .Z [] [(0xFE00, 0x1234)] [0x7A])
      (fun t => (t.reg 0, t.cc, t.mem.readWord 0xFE00, t.mem.readWord 0xFE02, t.kbd)) =
      some (0x8000, .N, 0x8000, 0x007A, []) := by decide

/-- V-ST-1. -/
theorem test_st :
    after 0x3201 (state 0x3006 .N [(1, 0x000F)] [] []) (fun t => (t.pc, t.mem.readWord 0x3008, t.cc)) =
      some (0x3007, 0x000F, .N) := by decide

/-- V-ST-3: a store to the status address does not poll. -/
theorem test_st_status_address :
    after 0x3400 (state 0xFDFF .Z [(2, 0x5555)] [] [0x41]) (fun t => (t.mem.readWord 0xFE00, t.kbd)) =
      some (0x5555, [0x41]) := by decide

/-- V-LDI-6: the pointer word itself is at the status address. -/
theorem test_ldi_pointer_polls :
    after 0xA200 (state 0xFDFF .Z [] [(0x4000, 0x0456), (0x8000, 0x0123), (0xFE00, 0x4000)] [0x41])
      (fun t => (t.reg 1, t.cc, t.kbd)) = some (0x0123, .P, []) := by decide

/-- V-STI-2: the pointer points at itself. -/
theorem test_sti_self :
    after 0xB401 (state 0x3000 .Z [(2, 0x1234)] [(0x3002, 0x3002)] []) (fun t => (t.mem.readWord 0x3002, t.cc)) =
      some (0x1234, .Z) := by decide

/-- V-LDR-4: the destination is the base. -/
theorem test_ldr_base_is_destination :
    after 0x6240 (state 0x3000 .Z [(1, 0x4000)] [(0x4000, 0x4001)] []) (fun t => (t.reg 1, t.cc)) =
      some (0x4001, .P) := by decide

/-- V-STR-1. -/
theorem test_str_wraps :
    after 0x72A0 (state 0x3000 .P [(1, 0xBEEF), (2, 0x0010)] [] []) (fun t => (t.mem.readWord 0xFFF0, t.cc)) =
      some (0xBEEF, .P) := by decide

/-- V-LEA-2. -/
theorem test_lea :
    after 0xE3FF (state 0x8000 .Z [] [] []) (fun t => (t.pc, t.reg 1, t.cc)) = some (0x8001, 0x8000, .N) := by decide

/-- V-GETC-1. -/
theorem test_getc :
    after 0xF020 (state 0x3000 .N [(0, 0xFFFF), (7, 0x1111)] [] [0x61, 0x62])
      (fun t => (t.pc, t.reg 0, t.reg 7, t.cc, t.kbd)) = some (0x3001, 0x0061, 0x3001, .P, [0x62]) := by decide

/-- V-GETC-4: held. -/
theorem test_getc_held :
    after 0xF020 (state 0x3000 .P [(0, 0x1234)] [] []) (fun t => (t.pc, t.reg 0, t.reg 7, t.cc, t.run)) =
      some (0x3000, 0x1234, 0x0000, .P, .running) := by decide

/-- V-OUT-2. -/
theorem test_out :
    after 0xF021 (state 0x3000 .N [(0, 0x1241)] [] []) (fun t => (t.reg 7, t.cc, t.out)) =
      some (0x3001, .N, [0x41]) := by decide

/-- V-PUTS-3: the scan wraps. -/
theorem test_puts_wraps :
    after 0xF022 (state 0x3000 .Z [(0, 0xFFFF)] [(0x0000, 0x0042), (0xFFFF, 0x0041)] [])
      (fun t => (t.pc, t.reg 0, t.reg 7, t.out)) = some (0x3001, 0xFFFF, 0x3001, [0x41, 0x42]) := by decide

/-- V-PUTS-4: the string runs into the status address. -/
theorem test_puts_reaches_status_address :
    after 0xF022 (state 0x3000 .Z [(0, 0xFDFE)] [(0xFDFE, 0x0041), (0xFDFF, 0x0042), (0xFE00, 0x0043)] [])
      (fun t => (t.mem.readWord 0xFE00, t.out)) = some (0x0000, [0x41, 0x42]) := by decide

/-- V-PUTS-5: R7's default `refuse` gives the step no meaning; and V-UNK-4: an unrecognised vector made fatal. -/
theorem test_other_parameters :
    playWith defaultOptions [.step]
      ((state 0x3000 .Z [(0, 0x4000)] [(0x4000, 0x0141)] []).withFetchWord 16 0xF022) = .refused .putsWideWord ∧
    (match stepWith { defaultOptions with unknownTrapFatal := true }
        ((state 0x3000 .N [] [] []).withFetchWord 16 0xF026) with
      | .next t => some (t.pc, t.reg 7, t.run, t.notes)
      | .fault _ => none
      | .refused _ => none) =
      some (0x3001, 0x3001, .faulted, [.unknownTrap 0x26, .faultDiag .unknownTrapVector]) := by decide

/-- V-IN-1. -/
theorem test_in :
    after 0xF023 (state 0x3000 .N [] [] [0x0A]) (fun t => (t.reg 0, t.cc, t.kbd, t.out)) =
      some (0x000A, .P, [], []) := by decide

/-- V-PUTSP-2: a zero low byte is written. -/
theorem test_putsp :
    after 0xF024 (state 0x3000 .Z [(0, 0x3003)] [(0x3003, 0x4100), (0x3004, 0x0042)] [])
      (fun t => (t.reg 7, t.out)) = some (0x3001, [0x00, 0x41, 0x42]) := by decide

/-- V-HALT-1. -/
theorem test_halt :
    after 0xF025 (state 0x3002 .P [(0, 0x0005)] [] []) (fun t => (t.pc, t.reg 7, t.run, t.notes)) =
      some (0x3003, 0x3003, .halted, [.haltNotice]) := by decide

/-- V-UNK-1. -/
theorem test_unknown_vector :
    after 0xF026 (state 0x3000 .N [] [] []) (fun t => (t.reg 7, t.cc, t.run, t.notes)) =
      some (0x3001, .N, .running, [.unknownTrap 0x26]) := by decide

/-- V-RTI-2 and V-RES-2. -/
theorem test_unused :
    after 0x8FFF (state 0x3000 .P [(7, 0x1234)] [] []) (fun t => (t.pc, t.reg 7, t.cc)) = some (0x3001, 0x1234, .P) ∧
    after 0xDFFF (state 0x3000 .P [(7, 0x1234)] [] []) (fun t => (t.pc, t.reg 7, t.cc)) =
      some (0x3001, 0x1234, .P) := by decide

/-- V-FETCH-2: a fetch at the status address returns the poll's result. -/
theorem test_fetch_at_status_address :
    (next (state 0xFE00 .Z [] [(0xFE00, 0xF025)] [0x41])).map (fun t => (t.pc, t.run, t.kbd, t.mem.readWord 0xFE02)) =
      some (0xFE01, .running, [], 0x0041) := by decide

/-! Images and host moves. -/

/-- V-IMG-3: the last image loaded wins. -/
theorem test_boot_last_wins :
    (boot [[0x30, 0x00, 0x11, 0x11, 0x22, 0x22, 0x33, 0x33], [0x30, 0x01, 0xAA, 0xAA]] []).toOption.map
      (fun t => (t.mem.readWord 0x3000, t.mem.readWord 0x3001, t.mem.readWord 0x3002, t.pc)) =
      some (0x1111, 0xAAAA, 0x3333, 0x3000) := by decide

/-- V-IMG-6, V-IMG-7: images that give no run. -/
theorem test_boot_rejects :
    boot [[0xFF, 0xFF, 0x12, 0x34, 0x56, 0x78]] [] = .error .imageTooLarge ∧
    boot [[0x30, 0x00, 0x12]] [] = .error .imageOddLength ∧ boot [[]] [] = .error .noOrigin ∧
    boot [] [] = .error .noImage := by
  refine ⟨rfl, rfl, rfl, rfl⟩

/-- R246: the host aborts a held GETC. -/
theorem test_abort_while_held :
    play [.step, .abort] ((state 0x3000 .Z [] [] []).withFetchWord 16 0xF020) = .aborted := by decide

/-! Witnesses: concrete inputs that meet the hypotheses of a statement, one theorem for each statement that has some, with
a boundary value for each clause. -/

theorem opMap_bijective : opMap.Bijective := by
  refine ⟨fun c => ?_, by decide⟩
  cases c <;> rfl

theorem witness_DecodeReadsEveryFormat : opMap.Bijective ∧ (0x1F#8) ∉ serviceVectors ∧ (0x26#8) ∉ serviceVectors :=
  ⟨opMap_bijective, by decide, by decide⟩

theorem witness_DecodeOfEncodeIsIdentity : opMap.Bijective ∧ (Instr.trap 0x26#8).wellFormed = true :=
  ⟨opMap_bijective, by decide⟩

theorem witness_DecodeReadsExactlyTheNamedBits :
    opMap.Bijective ∧ 0x14DC#16 &&& careMask (decodeWith opMap 0x14C4#16) =
      0x14C4#16 &&& careMask (decodeWith opMap 0x14C4#16) := ⟨opMap_bijective, by decide⟩

theorem witness_SignExtensionFollowsFormula : 8 ≤ 16 := by decide

/-- The boundary of R274 at `0xFFFF`: one word. -/
theorem witness_ImageFormatIsBigEndian :
    [(0x12#8, 0x34#8)].length ≤ 65536 - ((0xFF#8).toNat * 256 + (0xFF#8).toNat) ∧
    parseImage [0xFF#8, 0xFF#8, 0x12#8, 0x34#8] = .ok ⟨0xFFFF, [0x1234]⟩ ∧ 0 < (Image.mk 0xFFFF [0x1234]).words.length :=
  ⟨by decide, rfl, by decide⟩

/-- One word at the top of memory fits, two do not (V-IMG-5, V-IMG-6). -/
theorem witness_BootLoadsImagesLastWins : [Image.mk 0xFFFF [0x1234]] ≠ [] ∧
    ∀ img ∈ [Image.mk 0xFFFF [0x1234]], img.fits := by
  refine ⟨by decide, ?_⟩
  unfold Image.fits
  decide

theorem witness_BootRejectsTooLargeImage : ¬ (Image.mk 0xFFFF [0x1234, 0x5678]).fits := by
  unfold Image.fits
  decide

theorem witness_BootRejectsMalformedImage :
    [0x30#8, 0x00#8, 0x12#8].length % 2 = 1 ∧ ([] : List Byte).length < 2 := by decide

/-- The three clauses of `BusRead`: an ordinary address, the status address without and with a key. -/
theorem witness_BusReadPollsAtStatusAddress :
    (0xFE01#16) ≠ params.kbsrAddr ∧ params.kbdrAddr ≠ params.kbsrAddr ∧ (state 0x3000 .Z [] [] []).kbd = [] ∧
    (state 0x3000 .Z [] [] [0x00]).kbd = 0x00#8 :: [] := by decide

theorem witness_CanonicalMemoryIsUnique :
    Memory.wf [(0, 0x12#8), (131071, 0x34#8)] = true ∧ Memory.wf (Memory.writeWord [(131071, 0x34#8)] 0 0x1200) = true ∧
    ∀ a, Memory.readWord [(0, 0x12#8), (131071, 0x34#8)] a = (Memory.writeWord [(131071, 0x34#8)] 0 0x1200).readWord a :=
  ⟨by decide, by decide, fun _ => rfl⟩

theorem witness_FetchReadsThenIncrements : (state 0xFE01 .Z [] [] []).pc ≠ params.kbsrAddr := by decide

/-- The clauses of BR: taken on the tested flag, not taken on another. -/
theorem witness_BranchTakenOnMatchingFlag :
    (true = true ∧ (state 0x3000 .N [] [] []).cc = .N) ∧
    ¬ (true = true ∧ (state 0x3000 .Z [] [] []).cc = .N ∨ false = true ∧ (state 0x3000 .Z [] [] []).cc = .Z ∨
      false = true ∧ (state 0x3000 .Z [] [] []).cc = .P) := by decide

/-- The clauses of JSRR: `R6` and `R7` as base. -/
theorem witness_JsrrLinksThenReadsBase : (6 : Reg) ≠ 7 ∧ (7 : Reg) = 7 := by decide

theorem witness_GetcAndInTakeHeadKey :
    (state 0x3000 .Z [] [] [0x00, 0x61]).kbd = 0x00#8 :: [0x61] ∧ (Instr.trapIn = .trapGetc ∨ Instr.trapIn = .trapIn) := by
  decide

theorem witness_InEchoesOnlyWhenConfigured : (state 0x3000 .Z [] [] [0x79]).kbd = 0x79#8 :: [] := by decide

/-- A held GETC at `0xFFFF`, the top of memory. -/
theorem witness_GetcAndInHeldWithoutKey :
    let s := (state 0xFFFF .Z [] [] []).withFetchWord 16 0xF020
    s.run = .running ∧ s.kbd = [] ∧ s.pc ≠ params.kbsrAddr ∧
      (decode (s.mem.readWord s.pc) = .trapGetc ∨ decode (s.mem.readWord s.pc) = .trapIn) := by decide

/-- A held IN. -/
theorem witness_HostKeyLiftsHold :
    let s := (state 0x3000 .Z [] [] []).withFetchWord 16 0xF023
    s.run = .running ∧ s.kbd = [] ∧ s.pc ≠ params.kbsrAddr ∧
      (decode (s.mem.readWord s.pc) = .trapGetc ∨ decode (s.mem.readWord s.pc) = .trapIn) := by decide

/-- A state whose R0 points at V-PUTS-1's string. -/
def hiString : State := state 0x3000 .P [(0, 0x3003)] [(0x3003, 0x0068), (0x3004, 0x0069)] []

/-- A state whose R0 points at V-PUTS-5's string, one word above `0x00FF`. -/
def wideString : State := state 0x3000 .Z [(0, 0x4000)] [(0x4000, 0x0141)] []

/-- A state whose R0 points at a packed string in the last word of memory. -/
def packedString : State := state 0x3000 .Z [(0, 0xFFFF)] [(0xFFFF, 0x6948)] []

/-- V-PUTS-4's string, which runs into the status address, and the words after that address. -/
def crossingString (kbd : List Byte) : State :=
  state 0x3000 .Z [(0, 0xFDFE)] [(0xFDFE, 0x0041), (0xFDFF, 0x0042), (0xFE00, 0x0043), (0xFE01, 0x0044)] kbd

theorem crossingString_runs (kbd : List Byte) (h : kbd = [] ∨ kbd = [0x61]) :
    RunsIntoStatus (crossingString kbd) ((crossingString kbd).reg 0) [0x0041, 0x0042] := by
  rcases h with rfl | rfl <;>
  exact ⟨by decide, by decide, by decide, by decide, by decide, by decide, show _ = _ by decide⟩

/-- A wide word just before the status address. -/
theorem wideCrossing_runs :
    let s := state 0x3000 .Z [(0, 0xFDFF)] [(0xFDFF, 0x0100)] []
    RunsIntoStatus s (s.reg 0) [0x0100] :=
  ⟨by decide, by decide, by decide, show _ = _ by decide⟩

/-- After the poll takes the key 0x61, the words at 0xFE01 and at the data address, then a zero. -/
theorem crossingString_goes_on : StringAt (crossingString [0x61]).poll (params.kbsrAddr + 1) [0x0044, 0x0061] :=
  ⟨by decide, by decide, by decide, by decide, by decide, by decide, by decide, by decide⟩

/-- The clauses: a string clear of the status address, narrow and wide; one that runs into it, narrow and wide, without a
key; one with a key. -/
theorem witness_PutsPrintsString :
    (StringAt hiString (hiString.reg 0) [0x0068, 0x0069] ∧ ∀ w ∈ [0x0068#16, 0x0069#16], w.toNat ≤ 0xFF) ∧
    (StringAt wideString (wideString.reg 0) [0x0141] ∧ ∃ w ∈ [0x0141#16], 0xFF < w.toNat) ∧
    (RunsIntoStatus (crossingString []) ((crossingString []).reg 0) [0x0041, 0x0042] ∧ (crossingString []).kbd = []) ∧
    (RunsIntoStatus (state 0x3000 .Z [(0, 0xFDFF)] [(0xFDFF, 0x0100)] []) 0xFDFF [0x0100] ∧
      ∃ w ∈ [0x0100#16], 0xFF < w.toNat) ∧
    RunsIntoStatus (crossingString [0x61]) ((crossingString [0x61]).reg 0) [0x0041, 0x0042] ∧
    (crossingString [0x61]).kbd = 0x61#8 :: [] ∧
    StringAt (crossingString [0x61]).poll (params.kbsrAddr + 1) [0x0044, 0x0061] :=
  ⟨⟨⟨by decide, by decide, by decide, by decide, by decide, by decide, by decide, by decide⟩, by simp⟩,
    ⟨⟨by decide, by decide, by decide, by decide, by decide⟩, ⟨0x0141#16, by simp, by decide⟩⟩,
    ⟨crossingString_runs [] (.inl rfl), rfl⟩, ⟨wideCrossing_runs, ⟨0x0100#16, by simp, by decide⟩⟩,
    crossingString_runs [0x61] (.inr rfl), rfl, crossingString_goes_on⟩

theorem witness_PutspPrintsPackedString :
    StringAt packedString (packedString.reg 0) [0x6948] ∧
    (RunsIntoStatus (crossingString []) ((crossingString []).reg 0) [0x0041, 0x0042] ∧ (crossingString []).kbd = []) ∧
    RunsIntoStatus (crossingString [0x61]) ((crossingString [0x61]).reg 0) [0x0041, 0x0042] ∧
    (crossingString [0x61]).kbd = 0x61#8 :: [] ∧
    StringAt (crossingString [0x61]).poll (params.kbsrAddr + 1) [0x0044, 0x0061] :=
  ⟨⟨by decide, by decide, by decide, by decide, by decide⟩, ⟨crossingString_runs [] (.inl rfl), rfl⟩,
    crossingString_runs [0x61] (.inr rfl), rfl, crossingString_goes_on⟩

theorem witness_StringServicesAlwaysComplete : Instr.trapPutsp = .trapPuts ∨ Instr.trapPutsp = .trapPutsp := by decide

theorem witness_UnknownVectorNotices : (0x00#8) ∉ serviceVectors ∧ (0xFF#8) ∉ serviceVectors := by decide

theorem witness_UnusedClassesDoNothing :
    (Instr.rti = .rti ∨ Instr.rti = .reserved) ∧ (Instr.reserved = .rti ∨ Instr.reserved = .reserved) := by decide

theorem witness_StepRunsDecodedInstruction :
    let s := (state 0x3000 .Z [] [] []).withFetchWord 16 0x1261
    s.run = .running ∧ decode (fetch s).1 = .addImm 1 1 0b00001#5 ∧ s.pc ≠ params.kbsrAddr ∧
      decode (s.mem.readWord s.pc) = .addImm 1 1 0b00001#5 := by decide

theorem witness_WithFetchWordRunsInstruction : (Instr.ld 7 0x1FF#9).wellFormed = true := by decide

/-- Without a key and with two. -/
theorem witness_FetchAtStatusAddressIsNoOperation :
    ((state 0xFE00 .N [] [] []).run = .running ∧ (state 0xFE00 .N [] [] []).pc = params.kbsrAddr ∧
      (state 0xFE00 .N [] [] []).kbd = []) ∧
    (state 0xFE00 .N [] [] [0x41, 0x42]).run = .running ∧ (state 0xFE00 .N [] [] [0x41, 0x42]).pc = params.kbsrAddr ∧
      (state 0xFE00 .N [] [] [0x41, 0x42]).kbd ≠ [] := by decide

/-- The clauses of the run state: a next state, HALTED and FAULTED. -/
theorem witness_StepExistsOnlyInRunning :
    (∃ t, step State.reset = .next t) ∧ (State.reset.setRun .halted).run = .halted ∧
    (State.reset.setRun .faulted).run = .faulted := ⟨⟨_, rfl⟩, rfl, rfl⟩

theorem witness_RunningMachineAlwaysSteps : State.reset.run = .running := rfl

/-- An instruction that halts, one that does not, and one that faults under `UNKNOWN_TRAP_FATAL`. -/
theorem witness_OnlyHaltLeavesRunning :
    State.reset.run = .running ∧ Instr.trapHalt.wellFormed = true ∧ (∃ t, exec .trapHalt State.reset = .next t) ∧
    (Instr.rti.wellFormed = true ∧ ∃ t, execWith options .rti State.reset = .next t) ∧
    (Instr.trap 0x26#8).wellFormed = true ∧
    ∃ t, execWith { defaultOptions with unknownTrapFatal := true } (.trap 0x26#8) State.reset = .next t :=
  ⟨rfl, rfl, ⟨_, rfl⟩, ⟨rfl, ⟨_, rfl⟩⟩, by decide, ⟨_, rfl⟩⟩

/-- The three clauses: no destination, a destination, a held GETC. -/
theorem witness_ConditionCodeWrittenOnlyByRule :
    ((∃ t, exec (.jsr 0) State.reset = .next t) ∧ flagSource (.jsr 0) = none) ∧
    ((∃ t, exec (.lea 7 0) State.reset = .next t) ∧ flagSource (.lea 7 0) = some 7 ∧
      isHeld (.lea 7 0) State.reset = false) ∧
    (∃ t, exec .trapGetc State.reset = .next t) ∧ isHeld .trapGetc State.reset = true :=
  ⟨⟨⟨_, rfl⟩, rfl⟩, ⟨⟨_, rfl⟩, rfl, rfl⟩, ⟨_, rfl⟩, rfl⟩

theorem witness_RegistersWrittenOnlyByRule :
    (Instr.addReg 0 7 7).wellFormed = true ∧ ∃ t, exec (.addReg 0 7 7) State.reset = .next t := ⟨rfl, ⟨_, rfl⟩⟩

/-- A store and an instruction that stores nothing. -/
theorem witness_MemoryWrittenOnlyByStoresAndPolls :
    (Instr.st 0 0x1FF).wellFormed = true ∧ (∃ t, exec (.st 0 0x1FF) State.reset = .next t) ∧
    storeAddress (.st 0 0x1FF) State.reset = some 0x2FFF ∧
    (∃ t, exec (.ld 0 0) State.reset = .next t) ∧ storeAddress (.ld 0 0) State.reset = none :=
  ⟨rfl, ⟨_, rfl⟩, by decide, ⟨_, rfl⟩, rfl⟩

/-- An instruction that is not held and one that is. -/
theorem witness_OnlyControlTransfersAssignPc :
    ((∃ t, exec .rti State.reset = .next t) ∧ isControl .rti = false ∧ isHeld .rti State.reset = false) ∧
    (∃ t, exec .trapIn State.reset = .next t) ∧ isControl .trapIn = false ∧ isHeld .trapIn State.reset = true :=
  ⟨⟨⟨_, rfl⟩, rfl, rfl⟩, ⟨_, rfl⟩, rfl, rfl⟩

theorem witness_EveryTrapLinksInR7 :
    (Instr.trap 0xFF#8).opClass = .trap ∧ isHeld (.trap 0xFF#8) State.reset = false ∧
    (Instr.trap 0xFF#8).wellFormed = true ∧ ∃ t, exec (.trap 0xFF#8) State.reset = .next t :=
  ⟨rfl, rfl, by decide, ⟨_, rfl⟩⟩

theorem witness_StepKeepsMemoryCanonical :
    (state 0x3000 .Z [] [(0x3000, 0x3000)] []).Inv ∧
    ∃ t, step (state 0x3000 .Z [] [(0x3000, 0x3000)] []) = .next t := ⟨by unfold State.Inv; decide, ⟨_, rfl⟩⟩

theorem witness_StepsOnlyTakeKeysAndAppendOutput : ∃ t, step (state 0xFE00 .Z [] [] [0x41]) = .next t := ⟨_, rfl⟩

theorem witness_HistoryCannotBeRead :
    ∃ t, step ((state 0x3000 .Z [(0, 0x41)] [] []).withFetchWord 16 0xF021) = .next t := ⟨_, rfl⟩

theorem witness_HostMovesEndOrKeepRuns :
    State.reset.run = .running ∧ (State.reset.setRun .halted).run ≠ .running ∧
    (State.reset.setRun .faulted).run ≠ .running := ⟨rfl, by decide, by decide⟩

end Sys2Proof.Tests
end

section
/-! PROOFS. Field extension and the step (00_scope.md R7, R8, R11; 10_state.md R25; 30_encoding.md R95). -/

namespace Sys2Proof.Machine

/-! Sign and zero extension of a field no wider than a word (R11). -/

/-- The source's two cases of `sext_N`, for every field no wider than a word. -/
theorem toNat_sext {n : Nat} (hn : n ≤ 16) (v : BitVec n) :
    (sext v).toNat = if v.getLsbD (n - 1) then v.toNat + 65536 - 2 ^ n else v.toNat := by
  have hpow : 2 ^ n ≤ 65536 := Nat.pow_le_pow_right (by decide) hn
  rw [sext, BitVec.toNat_signExtend, BitVec.toNat_setWidth_of_le hn, BitVec.msb_eq_getLsbD_last]
  split
  · exact (Nat.add_sub_assoc hpow _).symm
  · exact Nat.add_zero _

/-- The low bits of a sign-extended field are the field. -/
@[simp] theorem extractLsb'_sext {n : Nat} (hn : n ≤ 16) (v : BitVec n) : (sext v).extractLsb' 0 n = v := by
  ext i hi
  simp [sext, BitVec.getElem_signExtend, hi, Nat.lt_of_lt_of_le hi hn]

/-- R11's formula for one field, with its idempotence: extending the low bits of the result gives it again. -/
theorem sext_formula_and_idempotent {n : Nat} (hn : n ≤ 16) (v : BitVec n) :
    (sext v).toNat = (if v.getLsbD (n - 1) then v.toNat + 65536 - 2 ^ n else v.toNat) ∧
      sext ((sext v).extractLsb' 0 n) = sext v :=
  ⟨toNat_sext hn v, congrArg sext (extractLsb'_sext hn v)⟩

theorem toNat_zext {n : Nat} (hn : n ≤ 16) (v : BitVec n) : (zext v).toNat = v.toNat :=
  BitVec.toNat_setWidth_of_le hn

/-- Settles O6: the formula and its idempotence at each field width, and the value of a zero-extended field. -/
theorem signExtensionFollowsFormula : Obligations.SignExtensionFollowsFormula :=
  ⟨sext_formula_and_idempotent (by decide), sext_formula_and_idempotent (by decide),
    sext_formula_and_idempotent (by decide), sext_formula_and_idempotent (by decide), fun _ hn => toNat_zext hn⟩

/-! The step in RUNNING (R8, R25). -/

/-- Away from the status address a step executes the stored word's instruction on the state with `pc` incremented. -/
theorem step_running_ordinary {s : State} (h : s.run = .running) (hpc : s.pc ≠ params.kbsrAddr) :
    step s = exec (decode (s.mem.readWord s.pc)) (s.setPc (s.pc + 1)) := by
  rw [step_running h, fetch_ordinary hpc]

/-- Settles O45: the equations of a step in RUNNING, after any fetch, after an ordinary fetch and under any parameters. -/
theorem stepRunsDecodedInstruction : Obligations.StepRunsDecodedInstruction := by
  refine ⟨fun s i hrun => ⟨?_, ?_⟩, fun o s hrun => stepWith_running hrun o, stepWith_options⟩
  · rintro rfl
    exact step_running hrun
  · rintro hpc rfl
    exact step_running_ordinary hrun hpc

end Sys2Proof.Machine
end

section
/-! PROOFS. What an instruction that answers a next state can do, said once for every form (10_state.md R21, R25, R28,
R30, R37, R38, R39). -/

namespace Sys2Proof.Machine

/-! What any number of bus reads keeps. -/

/-- What the bus reads of one instruction may change: the two device words, and the head of the keyboard queue. -/
structure KeptByReads (s u : State) : Prop where
  reg : ∀ r, u.reg r = s.reg r
  pc : u.pc = s.pc
  cc : u.cc = s.cc
  run : u.run = s.run
  out : u.out = s.out
  notes : u.notes = s.notes
  kbd : u.kbd <:+ s.kbd
  mem : MemoryExcept [params.kbsrAddr, params.kbdrAddr] s u
  wf : s.mem.wf = true → u.mem.wf = true

theorem KeptByReads.refl (s : State) : KeptByReads s s :=
  ⟨fun _ => rfl, rfl, rfl, rfl, rfl, rfl, List.suffix_refl _, MemoryExcept.refl s _, id⟩

theorem KeptByReads.trans {s t u : State} (h : KeptByReads s t) (h' : KeptByReads t u) : KeptByReads s u where
  reg r := (h'.reg r).trans (h.reg r)
  pc := h'.pc.trans h.pc
  cc := h'.cc.trans h.cc
  run := h'.run.trans h.run
  out := h'.out.trans h.out
  notes := h'.notes.trans h.notes
  kbd := h'.kbd.trans h.kbd
  mem := h.mem.trans h'.mem
  wf := h'.wf ∘ h.wf

theorem keptByReads_readEffect (s : State) (a : Word) : KeptByReads s (readEffect a s) where
  reg := reg_readEffect s a
  pc := pc_readEffect s a
  cc := cc_readEffect s a
  run := run_readEffect s a
  out := out_readEffect s a
  notes := notes_readEffect s a
  kbd := kbd_readEffect_suffix s a
  mem := memory_readEffect s a
  wf h := wf_readEffect h a

/-- A scan that answers a next state leaves what its bus reads leave, with bytes appended to the console. -/
theorem scanString_reads {chars : Word → Option (List Byte)} {n : Nat} {a : Word} {s t : State}
    (h : scanString chars n a s = .next t) : ∃ u bs, KeptByReads s u ∧ t = u.emit bs := by
  obtain ⟨hr, hp, hc, hn, ho, hk, ⟨bs, hout⟩, hm, hw⟩ := scanString_next h
  exact ⟨{ t with out := s.out }, bs, ⟨hr, hp, hc, hn, rfl, ho, hk, hm, hw⟩, by simp [State.emit, hout]⟩

/-! What an instruction can do. -/

/-- The state after the R207 rule for the vector `v`: the link, the notice, and the fault if it is fatal. -/
def afterUnknown (fatal : Bool) (v : BitVec 8) (s : State) : State :=
  if fatal then ((s.link.notice (.unknownTrap v)).setRun .faulted).notice (.faultDiag .unknownTrapVector)
  else s.link.notice (.unknownTrap v)

theorem unknownVector_eq (fatal : Bool) (v : BitVec 8) (s : State) :
    unknownVector fatal v s = .next (afterUnknown fatal v s) := by
  cases fatal <;> rfl

@[simp] theorem reg_afterUnknown (fatal : Bool) (v : BitVec 8) (s : State) (r : Reg) :
    (afterUnknown fatal v s).reg r = s.link.reg r := by
  cases fatal <;> rfl

@[simp] theorem pc_afterUnknown (fatal : Bool) (v : BitVec 8) (s : State) : (afterUnknown fatal v s).pc = s.pc := by
  cases fatal <;> rfl

@[simp] theorem cc_afterUnknown (fatal : Bool) (v : BitVec 8) (s : State) : (afterUnknown fatal v s).cc = s.cc := by
  cases fatal <;> rfl

@[simp] theorem run_afterUnknown (fatal : Bool) (v : BitVec 8) (s : State) :
    (afterUnknown fatal v s).run = if fatal then .faulted else s.run := by
  cases fatal <;> rfl

@[simp] theorem mem_afterUnknown (fatal : Bool) (v : BitVec 8) (s : State) : (afterUnknown fatal v s).mem = s.mem := by
  cases fatal <;> rfl

@[simp] theorem kbd_afterUnknown (fatal : Bool) (v : BitVec 8) (s : State) : (afterUnknown fatal v s).kbd = s.kbd := by
  cases fatal <;> rfl

@[simp] theorem out_afterUnknown (fatal : Bool) (v : BitVec 8) (s : State) : (afterUnknown fatal v s).out = s.out := by
  cases fatal <;> rfl

@[simp] theorem notes_afterUnknown (fatal : Bool) (v : BitVec 8) (s : State) :
    (afterUnknown fatal v s).notes =
      s.notes ++ .unknownTrap v :: (if fatal then [.faultDiag .unknownTrapVector] else []) := by
  cases fatal <;> simp [afterUnknown]

/-- The next states an instruction can answer from `s`: the closed list of its forms, each with what the tables of
Safety.lean say of the instructions it belongs to. In the forms with bus reads, `u` is the state these leave. -/
inductive Effect (o : Options) (s : State) : Instr → State → Prop
  /-- ADD, AND, NOT, LD, LDI, LDR, LEA: the destination and its flags. -/
  | destination {i dr u v} (hi : i.opClass ≠ .trap) (hc : isControl i = false) (hf : flagSource i = some dr)
      (hw : writtenRegs i = [dr]) (hs : storeAddress i s = none) (hu : KeptByReads s u) :
      Effect o s i (u.writeDest dr v)
  /-- ST, STI, STR: one word. -/
  | store {i a u v} (hi : i.opClass ≠ .trap) (hc : isControl i = false) (hf : flagSource i = none)
      (hw : writtenRegs i = []) (hs : storeAddress i s = some a) (hu : KeptByReads s u) : Effect o s i (memWrite a v u)
  /-- BR taken, JMP: `pc`. -/
  | jump {i p} (hi : i.opClass ≠ .trap) (hc : isControl i = true) (hf : flagSource i = none)
      (hw : writtenRegs i = []) (hs : storeAddress i s = none) : Effect o s i (s.setPc p)
  /-- JSR, JSRR: the link and `pc`. -/
  | call {i p} (hi : i.opClass ≠ .trap) (hc : isControl i = true) (hf : flagSource i = none)
      (hw : writtenRegs i = [linkReg]) (hs : storeAddress i s = none) : Effect o s i (s.link.setPc p)
  /-- BR not taken, RTI, the reserved class: nothing. -/
  | nothing {i} (hi : i.opClass ≠ .trap) (hf : flagSource i = none) (hw : writtenRegs i = [])
      (hs : storeAddress i s = none) : Effect o s i s
  /-- GETC, IN with no key waiting. -/
  | held {i} (hi : i = .trapGetc ∨ i = .trapIn) (hk : s.kbd = []) : Effect o s i (s.setPc (s.pc - 1))
  /-- GETC, IN with a key waiting: the link, the key in R0 with its flags, the echo if there is one. -/
  | key {i b rest bs} (hi : i = .trapGetc ∨ i = .trapIn) (hk : s.kbd = b :: rest) :
      Effect o s i (((s.link.setKbd rest).writeDest serviceReg (zext b)).emit bs)
  /-- OUT, PUTS, PUTSP: the link and bytes to the console. -/
  | print {i u bs} (hi : i = .trapOut ∨ i = .trapPuts ∨ i = .trapPutsp) (hu : KeptByReads s.link u) :
      Effect o s i (u.emit bs)
  /-- HALT: the link, the notice, the end of the run. -/
  | halt : Effect o s .trapHalt ((s.link.notice .haltNotice).setRun .halted)
  /-- A vector that names no service. -/
  | unknown {v} : Effect o s (.trap v) (afterUnknown o.unknownTrapFatal v s)

/-- GETC and IN, held or not. -/
theorem Effect.of_readChar {o : Options} {mode : InEcho} {i : Instr} {s t : State} (hi : i = .trapGetc ∨ i = .trapIn)
    (h : readCharService mode s = .next t) : Effect o s i t := by
  cases hk : s.kbd with
  | nil =>
    rw [readCharService_nil hk] at h
    cases h
    exact .held hi hk
  | cons b rest =>
    rw [readCharService_cons hk] at h
    cases h
    exact .key hi hk

/-- PUTS and PUTSP, whatever bytes a word writes. -/
theorem Effect.of_scan {o : Options} {chars : Word → Option (List Byte)} {n : Nat} {a : Word} {i : Instr}
    {s t : State} (hi : i = .trapOut ∨ i = .trapPuts ∨ i = .trapPutsp) (h : scanString chars n a s.link = .next t) :
    Effect o s i t := by
  obtain ⟨u, bs, hu, rfl⟩ := scanString_reads h
  exact .print hi hu

/-- The inversion of `execWith`: a next state is one of the forms of `Effect`. -/
theorem execWith_effect {o : Options} {i : Instr} {s t : State} (hwf : i.wellFormed = true)
    (h : execWith o i s = .next t) : Effect o s i t := by
  cases i with
  | addReg | addImm | andReg | andImm | not | lea =>
    cases h
    exact .destination nofun rfl rfl rfl rfl (.refl s)
  | ld | ldr =>
    cases h
    exact .destination nofun rfl rfl rfl rfl (keptByReads_readEffect s _)
  | ldi =>
    cases h
    exact .destination nofun rfl rfl rfl rfl ((keptByReads_readEffect s _).trans (keptByReads_readEffect _ _))
  | st | str =>
    cases h
    exact .store nofun rfl rfl rfl rfl (.refl s)
  | sti =>
    cases h
    exact .store nofun rfl rfl rfl rfl (keptByReads_readEffect s _)
  | br n z p off9 =>
    cases h
    split
    · exact .jump nofun rfl rfl rfl rfl
    · exact .nothing nofun rfl rfl rfl
  | jmp =>
    cases h
    exact .jump nofun rfl rfl rfl rfl
  | jsr | jsrr =>
    cases h
    exact .call nofun rfl rfl rfl rfl
  | rti | reserved =>
    cases h
    exact .nothing nofun rfl rfl rfl
  | trapGetc => exact .of_readChar (mode := .none) (.inl rfl) h
  | trapIn => exact .of_readChar (mode := o.inEcho) (.inr rfl) h
  | trapOut =>
    cases h
    exact .print (.inl rfl) (.refl _)
  | trapPuts => exact .of_scan (.inr (.inl rfl)) h
  | trapPutsp => exact .of_scan (.inr (.inr rfl)) h
  | trapHalt =>
    cases h
    exact .halt
  | trap v =>
    have hv : v ∉ serviceVectors := by simpa [Instr.wellFormed] using hwf
    rw [show execWith o (.trap v) s = trapWith o v s from rfl, trapWith_unknown s hv, unknownVector_eq] at h
    cases h
    exact .unknown

end Sys2Proof.Machine
end

section
/-! PROOFS. The safety statements over all instructions, each read off the forms of `Effect`. -/

namespace Sys2Proof.Machine

theorem exec_effect {i : Instr} {s t : State} (hwf : i.wellFormed = true) (h : exec i s = .next t) :
    Effect options s i t :=
  execWith_effect hwf ((execWith_options s i).trans h)

theorem wellFormed_decodeTrap (v : BitVec 8) : (decodeTrap v).wellFormed = true := by
  unfold decodeTrap
  iterate 6
    split
    · rfl
  simp [Instr.wellFormed, serviceVectors, *]

/-- R100: every word decodes to a well-formed instruction. -/
theorem wellFormed_decodeWith (m : OpMap) (w : Word) : (decodeWith m w).wellFormed = true := by
  unfold decodeWith
  cases m.classOf (fieldOp w) with
  | trap => exact wellFormed_decodeTrap _
  | add | and | jsr => dsimp only; split <;> rfl
  | _ => rfl

/-- The inversion of `step`: a next state comes from RUNNING, by one of the forms of `Effect` after the fetch. -/
theorem step_effect {s t : State} (h : step s = .next t) :
    s.run = .running ∧ Effect options (fetch s).2 (decode (fetch s).1) t := by
  have hrun := running_of_step h
  rw [step_running hrun] at h
  exact ⟨hrun, exec_effect (wellFormed_decodeWith _ _) h⟩

/-! Memory stays canonical. -/

theorem wf_memWrite {s : State} (h : s.mem.wf = true) (a v : Word) : (memWrite a v s).mem.wf = true :=
  Memory.wf_writeWord h a v

theorem Effect.keeps_inv {o : Options} {i : Instr} {s t : State} (h : Effect o s i t) (hs : s.Inv) : t.Inv := by
  unfold State.Inv at *
  cases h with
  | destination _ _ _ _ _ hu => exact hu.wf hs
  | store _ _ _ _ _ hu => exact wf_memWrite (hu.wf hs) _ _
  | print _ hu => exact hu.wf hs
  | unknown => simpa using hs
  | jump | call | nothing | held | key | halt => exact hs

theorem inv_fetch {s : State} (h : s.Inv) : (fetch s).2.Inv := wf_readEffect h s.pc

/-- Settles O57: the fetch's bus read keeps the canonical form, and so does every form of a next state. -/
theorem stepKeepsMemoryCanonical : Obligations.StepKeepsMemoryCanonical := by
  intro s t hs h
  obtain ⟨-, he⟩ := step_effect h
  exact he.keeps_inv (inv_fetch hs)

/-! Keys are taken from the head, output and notices are appended. -/

/-- R37, R38, R39 as a relation: what a move of the machine may do to the host's three sequences. -/
structure PortsAdvance (s t : State) : Prop where
  kbd : t.kbd <:+ s.kbd
  out : s.out <+: t.out
  notes : s.notes <+: t.notes

theorem PortsAdvance.trans {s t u : State} (h : PortsAdvance s t) (h' : PortsAdvance t u) : PortsAdvance s u :=
  ⟨h'.kbd.trans h.kbd, h.out.trans h'.out, h.notes.trans h'.notes⟩

theorem PortsAdvance.of_kept {s t : State} (h : PortsKept s t) : PortsAdvance s t := by
  obtain ⟨hk, ho, hn⟩ := h
  exact ⟨by rw [hk], by rw [ho], by rw [hn]⟩

theorem KeptByReads.portsAdvance {s u : State} (h : KeptByReads s u) : PortsAdvance s u :=
  ⟨h.kbd, by rw [h.out], by rw [h.notes]⟩

theorem Effect.portsAdvance {o : Options} {i : Instr} {s t : State} (h : Effect o s i t) : PortsAdvance s t := by
  cases h with
  | destination _ _ _ _ _ hu | store _ _ _ _ _ hu => exact hu.portsAdvance.trans (.of_kept ⟨rfl, rfl, rfl⟩)
  | print _ hu => exact ⟨hu.kbd, by simp [hu.out], by simp [hu.notes]⟩
  | key _ hk => exact ⟨by simp [hk], by simp, by simp⟩
  | halt | unknown => exact ⟨by simp, by simp, by simp⟩
  | jump | call | nothing | held => exact .of_kept ⟨rfl, rfl, rfl⟩

theorem portsAdvance_fetch (s : State) : PortsAdvance s (fetch s).2 :=
  (keptByReads_readEffect s s.pc).portsAdvance.trans (.of_kept ⟨rfl, rfl, rfl⟩)

/-- Settles O58: the fetch takes at most the head key, and every form of a next state only takes and appends. -/
theorem stepsOnlyTakeKeysAndAppendOutput : Obligations.StepsOnlyTakeKeysAndAppendOutput := by
  intro s t h
  obtain ⟨-, he⟩ := step_effect h
  obtain ⟨hk, ho, hn⟩ := (portsAdvance_fetch s).trans he.portsAdvance
  exact ⟨hk, ho, hn⟩

/-! What an instruction may write (R21, R25, R28, R30). -/

theorem isHeld_iff {i : Instr} {s : State} : isHeld i s = true ↔ (i = .trapGetc ∨ i = .trapIn) ∧ s.kbd = [] := by
  simp [isHeld]

theorem not_isHeld {i : Instr} (s : State) (h : i.opClass ≠ .trap) : isHeld i s = false := by
  rw [Bool.eq_false_iff, Ne, isHeld_iff]
  rintro ⟨rfl | rfl, -⟩ <;> exact h rfl

/-- Settles O52: each form writes the registers its instructions name. -/
theorem registersWrittenOnlyByRule : Obligations.RegistersWrittenOnlyByRule := by
  intro s t i hwf h r hr
  cases exec_effect hwf h with
  | destination _ _ _ hw _ hu =>
    rw [hw] at hr
    rw [State.reg_writeDest_ne _ _ (List.ne_of_not_mem_cons hr), hu.reg]
  | store _ _ _ _ _ hu => exact hu.reg r
  | jump | nothing | held => rfl
  | call _ _ _ hw =>
    rw [hw] at hr
    exact State.reg_link_ne s (List.ne_of_not_mem_cons hr)
  | key hi =>
    obtain ⟨h0, h7⟩ : r ≠ serviceReg ∧ r ≠ linkReg := by
      rcases hi with rfl | rfl <;> simpa [writtenRegs] using hr
    simp [State.reg_writeDest_ne _ _ h0, State.reg_link_ne s h7]
  | print hi hu =>
    have hne : r ≠ linkReg := by rcases hi with rfl | rfl | rfl <;> simpa [writtenRegs] using hr
    exact (hu.reg r).trans (State.reg_link_ne s hne)
  | halt => exact State.reg_link_ne s (List.ne_of_not_mem_cons hr)
  | unknown => exact (reg_afterUnknown ..).trans (State.reg_link_ne s (List.ne_of_not_mem_cons hr))

/-- Settles O54: of the forms of an instruction that is no control transfer, only the held one assigns `pc`. -/
theorem onlyControlTransfersAssignPc : Obligations.OnlyControlTransfersAssignPc := by
  intro s t i hwf h hctl
  cases exec_effect hwf h with
  | destination hi _ _ _ _ hu => exact ⟨fun _ => hu.pc, by simp [not_isHeld s hi]⟩
  | store hi _ _ _ _ hu => exact ⟨fun _ => hu.pc, by simp [not_isHeld s hi]⟩
  | jump _ hc | call _ hc => simp [hc] at hctl
  | nothing hi => exact ⟨fun _ => rfl, by simp [not_isHeld s hi]⟩
  | held hi hk => exact ⟨by simp [isHeld_iff.2 ⟨hi, hk⟩], fun _ => rfl⟩
  | key _ hk => exact ⟨fun _ => rfl, by simp [isHeld_iff, hk]⟩
  | print hi hu => exact ⟨fun _ => hu.pc, by rcases hi with rfl | rfl | rfl <;> simp [isHeld_iff]⟩
  | halt => exact ⟨fun _ => rfl, by simp [isHeld_iff]⟩
  | unknown => exact ⟨fun _ => pc_afterUnknown .., by simp [isHeld_iff]⟩

/-- Settles O51: the forms that classify a destination are those of the instructions with a flag source. -/
theorem conditionCodeWrittenOnlyByRule : Obligations.ConditionCodeWrittenOnlyByRule := by
  intro s t i hwf h
  cases exec_effect hwf h with
  | destination hi _ hf =>
    refine ⟨by simp [hf], ?_, by simp [not_isHeld s hi]⟩
    rintro r hr -
    obtain rfl := Option.some.inj (hf.symm.trans hr)
    simp
  | store _ _ hf _ _ hu => exact ⟨fun _ => hu.cc, by simp [hf], fun _ => hu.cc⟩
  | jump _ _ hf | call _ _ hf | nothing _ hf => exact ⟨fun _ => rfl, by simp [hf], fun _ => rfl⟩
  | held hi hk => exact ⟨fun _ => rfl, by simp [isHeld_iff.2 ⟨hi, hk⟩], fun _ => rfl⟩
  | key hi hk =>
    have hf : flagSource i = some serviceReg := by rcases hi with rfl | rfl <;> rfl
    refine ⟨by simp [hf], ?_, by simp [isHeld_iff, hk]⟩
    rintro r hr -
    obtain rfl := Option.some.inj (hf.symm.trans hr)
    simp
  | print hi hu =>
    have hf : flagSource i = none := by rcases hi with rfl | rfl | rfl <;> rfl
    exact ⟨fun _ => hu.cc, by simp [hf], fun _ => hu.cc⟩
  | halt => exact ⟨fun _ => rfl, nofun, fun _ => rfl⟩
  | unknown => exact ⟨fun _ => cc_afterUnknown .., nofun, fun _ => cc_afterUnknown ..⟩

/-- What O50 says of a form: HALTED exactly by HALT, FAULTED exactly by a fatal unrecognised vector. -/
def LeavesRunningByRule (o : Options) (i : Instr) (t : State) : Prop :=
  (t.run = .halted ↔ i = .trapHalt) ∧ (t.run = .faulted ↔ o.unknownTrapFatal = true ∧ ∃ v, i = .trap v)

/-- An instruction that is neither HALT nor a generic TRAP keeps to the rule by staying in RUNNING. -/
theorem LeavesRunningByRule.of_running {o : Options} {i : Instr} {t : State} (ht : t.run = .running)
    (hh : i ≠ .trapHalt) (hv : ∀ v, i ≠ .trap v) : LeavesRunningByRule o i t := by
  simp [LeavesRunningByRule, ht, hh, hv]

theorem LeavesRunningByRule.of_not_trap {o : Options} {i : Instr} {t : State} (ht : t.run = .running)
    (hi : i.opClass ≠ .trap) : LeavesRunningByRule o i t :=
  .of_running ht (by rintro rfl; exact hi rfl) (by rintro v rfl; exact hi rfl)

theorem Effect.leavesRunningByRule {o : Options} {i : Instr} {s t : State} (hs : s.run = .running)
    (h : Effect o s i t) : LeavesRunningByRule o i t := by
  cases h with
  | destination hi _ _ _ _ hu | store hi _ _ _ _ hu => exact .of_not_trap (hu.run.trans hs) hi
  | jump hi | call hi | nothing hi => exact .of_not_trap hs hi
  | held hi | key hi => rcases hi with rfl | rfl <;> exact .of_running hs nofun nofun
  | print hi hu => rcases hi with rfl | rfl | rfl <;> exact .of_running (hu.run.trans hs) nofun nofun
  | halt => simp [LeavesRunningByRule]
  | unknown => cases hf : o.unknownTrapFatal <;> simp [LeavesRunningByRule, hf, hs]

/-- Settles O50: the rule under any parameters, and under `options`, where no vector is fatal. -/
theorem onlyHaltLeavesRunning : Obligations.OnlyHaltLeavesRunning := by
  intro s t i hrun hwf
  refine ⟨fun o h => (execWith_effect hwf h).leavesRunningByRule hrun, fun h => ?_⟩
  obtain ⟨hh, hf⟩ := (exec_effect hwf h).leavesRunningByRule hrun
  exact ⟨hh, fun ht => by simpa [options, defaultOptions] using hf.1 ht⟩

end Sys2Proof.Machine
end

section
/-! PROOFS. The machine cannot read its console output or its notices (10_state.md R38, R39): every operation commutes
with `State.after`, which puts a history in front. -/

namespace Sys2Proof.Machine

/-- An outcome with its next state, if it is one, put after a history; a fault or a refusal as it is. -/
def outcomeAfter (o : List Byte) (n : List Notice) :
    Host.Outcome State Fault Refusal → Host.Outcome State Fault Refusal
  | .next s => .next (s.after o n)
  | .fault r => .fault r
  | .refused r => .refused r

section

variable (s : State) (o : List Byte) (n : List Notice)

@[simp] theorem pc_after : (s.after o n).pc = s.pc := rfl
@[simp] theorem cc_after : (s.after o n).cc = s.cc := rfl
@[simp] theorem run_after : (s.after o n).run = s.run := rfl
@[simp] theorem reg_after (r : Reg) : (s.after o n).reg r = s.reg r := rfl

@[simp] theorem outcomeAfter_next : outcomeAfter o n (.next s) = .next (s.after o n) := rfl

/-! The operations. -/

@[simp] theorem setPc_after (t : Word) : (s.after o n).setPc t = (s.setPc t).after o n := rfl
@[simp] theorem setRun_after (r : RunState) : (s.after o n).setRun r = (s.setRun r).after o n := rfl
@[simp] theorem setKbd_after (k : List Byte) : (s.after o n).setKbd k = (s.setKbd k).after o n := rfl
@[simp] theorem link_after : (s.after o n).link = s.link.after o n := rfl
@[simp] theorem memWrite_after (a v : Word) : memWrite a v (s.after o n) = (memWrite a v s).after o n := rfl

@[simp] theorem writeDest_after (dr : Reg) (v : Word) :
    (s.after o n).writeDest dr v = (s.writeDest dr v).after o n := rfl

@[simp] theorem emit_after (bs : List Byte) : (s.after o n).emit bs = (s.emit bs).after o n := by
  simp [State.after, State.emit]

@[simp] theorem notice_after (k : Notice) : (s.after o n).notice k = (s.notice k).after o n := by
  simp [State.after, State.notice]

@[simp] theorem readEffect_after (a : Word) : readEffect a (s.after o n) = (readEffect a s).after o n := by
  unfold readEffect
  split
  · cases h : s.kbd with
    | nil => rw [State.poll_nil h, State.poll_nil (s := s.after o n) h]; rfl
    | cons b rest => rw [State.poll_cons h, State.poll_cons (s := s.after o n) h]; rfl
  · rfl

@[simp] theorem memRead_fst_after (a : Word) : (memRead a (s.after o n)).1 = (memRead a s).1 := by
  simp only [memRead, readEffect_after]
  rfl

@[simp] theorem loadFrom_after (dr : Reg) (a : Word) : loadFrom dr a (s.after o n) = (loadFrom dr a s).after o n := by
  simp [loadFrom]

@[simp] theorem afterUnknown_after (fatal : Bool) (v : BitVec 8) :
    afterUnknown fatal v (s.after o n) = (afterUnknown fatal v s).after o n := by
  cases fatal <;> simp [afterUnknown]

theorem scanString_after (chars : Word → Option (List Byte)) (k : Nat) (a : Word) :
    scanString chars k a (s.after o n) = outcomeAfter o n (scanString chars k a s) := by
  induction k generalizing a s with
  | zero => rfl
  | succ k ih =>
    simp only [scanString, memRead_fst_after, memRead_snd, readEffect_after]
    split
    · rfl
    · split
      · rfl
      · rw [emit_after, ih]

theorem readCharService_after (mode : InEcho) :
    readCharService mode (s.after o n) = outcomeAfter o n (readCharService mode s) := by
  cases hk : s.kbd with
  | nil => rw [readCharService_nil hk, readCharService_nil (s := s.after o n) hk]; rfl
  | cons b rest => simp [readCharService_cons hk, readCharService_cons (s := s.after o n) hk]

/-! Every instruction, and the step. -/

theorem exec_after {i : Instr} (hwf : i.wellFormed = true) :
    exec i (s.after o n) = outcomeAfter o n (exec i s) := by
  cases i with
  | addReg | addImm | andReg | andImm | not | jmp | jsr | jsrr | st | str | lea | rti | reserved => rfl
  | br nf zf pf off9 => cases hb : branchTaken nf zf pf s.cc <;> simp [exec, execBr, hb, pcRelative]
  | ld | ldr => exact congrArg Host.Outcome.next (loadFrom_after s o n _ _)
  | ldi => simp [exec, execLdi, pcRelative]
  | sti => simp [exec, execSti, pcRelative]
  | trapGetc => exact readCharService_after s o n .none
  | trapIn => exact readCharService_after s o n options.inEcho
  | trapOut => exact congrArg Host.Outcome.next (emit_after s.link o n _)
  | trapPuts => exact scanString_after s.link o n _ _ _
  | trapPutsp => exact scanString_after s.link o n _ _ _
  | trapHalt => simp [exec, execTrapHalt, trapReturn, trapEntry]
  | trap v =>
    have hv : v ∉ serviceVectors := by simpa [Instr.wellFormed] using hwf
    simp [exec, execTrap, trapWith_unknown _ hv, unknownVector_eq]

theorem step_after : step (s.after o n) = outcomeAfter o n (step s) := by
  have hf : fetch (s.after o n) = ((fetch s).1, (fetch s).2.after o n) := by simp [fetch]
  cases h : s.run with
  | running =>
    rw [step_running h, step_running (s := s.after o n) h, hf]
    exact exec_after _ o n (wellFormed_decodeWith _ _)
  | halted | faulted => simp [step, h, outcomeAfter]

end

/-- Settles O59: the step commutes with putting a history in front. -/
theorem historyCannotBeRead : Obligations.HistoryCannotBeRead := by
  intro s t o n h
  rw [step_after, h, outcomeAfter_next]

end Sys2Proof.Machine
end

section
/-! PROOFS. The canonical form of memory is one: a canonical memory is determined by its words (10_state.md R31). -/

namespace Sys2Proof.Machine

theorem Memory.pairwise_of_rising {m : Memory} (h : m.rising = true) : m.Pairwise fun c d => c.1 < d.1 := by
  induction m with
  | nil => exact .nil
  | cons c m ih =>
    obtain ⟨hc, hm⟩ : (∀ d ∈ m, c.1 < d.1) ∧ Memory.rising m = true := by simpa [Memory.rising] using h
    exact .cons hc (ih hm)

/-- In a memory with rising keys a cell holds what its key reads. -/
theorem Memory.readByte_of_mem {m : Memory} (h : m.Pairwise fun c d => c.1 < d.1) {c : Host.Cell} (hc : c ∈ m) :
    m.readByte c.1 = c.2 := by
  induction h with
  | nil => simp at hc
  | @cons d m hd _ ih =>
    rcases List.mem_cons.1 hc with rfl | hc
    · simp
    · rw [Memory.readByte_cons, if_neg (hd c hc).ne, ih hc]

/-- A key that reads as a listed byte is listed with it. -/
theorem Memory.mem_of_readByte {m : Memory} {k : Nat} (h : m.readByte k ≠ unlistedByte) :
    (k, m.readByte k) ∈ m := by
  induction m with
  | nil => simp at h
  | cons c m ih =>
    rw [Memory.readByte_cons] at h ⊢
    split
    · next hk => simp [← hk]
    · next hk => exact List.mem_cons_of_mem _ (ih (by simpa [hk] using h))

/-- The cells of a canonical memory are its nonzero bytes. -/
theorem Memory.mem_iff_readByte {m : Memory} (h : m.wf = true) {c : Host.Cell} :
    c ∈ m ↔ m.readByte c.1 = c.2 ∧ c.2 ≠ unlistedByte := by
  obtain ⟨hr, hb⟩ := Memory.wf_iff.1 h
  constructor
  · exact fun hc => ⟨Memory.readByte_of_mem (Memory.pairwise_of_rising hr) hc, (hb c hc).2⟩
  · rintro ⟨hc, hz⟩
    rw [← hc] at hz
    simpa [hc] using Memory.mem_of_readByte hz

/-- Canonical memories with the same bytes have the same cells, and rising keys fix their order. -/
theorem Memory.eq_of_readByte {m m' : Memory} (h : m.wf = true) (h' : m'.wf = true)
    (hb : ∀ k, m.readByte k = m'.readByte k) : m = m' := by
  have hirr : Std.Irrefl fun c d : Host.Cell => c.1 < d.1 := ⟨fun c => lt_irrefl c.1⟩
  have hanti : Std.Antisymm fun c d : Host.Cell => c.1 < d.1 := ⟨fun c d hcd hdc => absurd hdc hcd.asymm⟩
  refine (Memory.pairwise_of_rising (Memory.wf_iff.1 h).1).eq_of_mem_iff
    (Memory.pairwise_of_rising (Memory.wf_iff.1 h').1) fun c => ?_
  rw [Memory.mem_iff_readByte h, Memory.mem_iff_readByte h', hb]

/-- Every key inside the array is one of the two keys of a word. -/
theorem exists_key {k : Nat} (hk : k < memoryKeys) : ∃ a : Word, k = highKey a ∨ k = lowKey a := by
  unfold memoryKeys at hk
  refine ⟨BitVec.ofNat 16 (k / 2), ?_⟩
  simp only [highKey, lowKey, BitVec.toNat_ofNat]
  omega

theorem Memory.readByte_outside {m : Memory} (h : m.wf = true) {k : Nat} (hk : memoryKeys ≤ k) :
    m.readByte k = unlistedByte :=
  Memory.readByte_absent fun c hc => (((Memory.wf_iff.1 h).2 c hc).1.trans_le hk).ne

theorem Memory.high_readWord (m : Memory) (a : Word) : (m.readWord a).extractLsb' 8 8 = m.readByte (highKey a) :=
  BitVec.extractLsb'_append_eq_left

theorem Memory.low_readWord (m : Memory) (a : Word) : (m.readWord a).extractLsb' 0 8 = m.readByte (lowKey a) :=
  BitVec.extractLsb'_append_eq_right

/-- Memories with the same words have the same bytes inside the array. -/
theorem Memory.readByte_eq_of_readWord {m m' : Memory} (h : ∀ a, m.readWord a = m'.readWord a) {k : Nat}
    (hk : k < memoryKeys) : m.readByte k = m'.readByte k := by
  obtain ⟨a, ha⟩ := exists_key hk
  rcases ha with rfl | rfl
  · rw [← Memory.high_readWord, ← Memory.high_readWord, h]
  · rw [← Memory.low_readWord, ← Memory.low_readWord, h]

/-- Settles O19: words give the bytes inside the array, the bytes outside read zero, and the bytes give the cells. -/
theorem canonicalMemoryIsUnique : Obligations.CanonicalMemoryIsUnique := by
  intro m m' h h' hw
  refine Memory.eq_of_readByte h h' fun k => ?_
  by_cases hk : k < memoryKeys
  · exact Memory.readByte_eq_of_readWord hw hk
  · rw [Memory.readByte_outside h (not_lt.1 hk), Memory.readByte_outside h' (not_lt.1 hk)]

end Sys2Proof.Machine
end

section
/-! PROOFS. Decoding an encoded instruction gives it back (30_encoding.md R92, R94), and the step after `withFetchWord`
(10_state.md R25; notes/assumptions/27.md). -/

namespace Sys2Proof

open Sys2Proof.Machine

/-! The fields of an encoded word. -/

@[simp] theorem toFin_regBits (r : Reg) : (regBits r).toFin = r := rfl

@[simp] theorem getLsbD_bit_zero (b : Bool) : (bit b).getLsbD 0 = b := by cases b <;> rfl

/-- R90, R95: bits 15:12 of an encoded instruction are the opcode of its class. -/
theorem fieldOp_encodeWith (m : OpMap) (i : Instr) : fieldOp (encodeWith m i) = m.codeOf i.opClass := by
  cases i with
  | addReg dr sr1 sr2 => exact Laws.OpcodeField.addReg dr sr1 sr2 m
  | addImm dr sr1 imm5 => exact Laws.OpcodeField.addImm dr sr1 imm5 m
  | andReg dr sr1 sr2 => exact Laws.OpcodeField.andReg dr sr1 sr2 m
  | andImm dr sr1 imm5 => exact Laws.OpcodeField.andImm dr sr1 imm5 m
  | not dr sr1 => exact Laws.OpcodeField.not dr sr1 m
  | br n z p off9 => exact Laws.OpcodeField.br n z p off9 m
  | jmp base => exact Laws.OpcodeField.jmp base m
  | jsr off11 => exact Laws.OpcodeField.jsr off11 m
  | jsrr base => exact Laws.OpcodeField.jsrr base m
  | ld dr off9 => exact Laws.OpcodeField.ld dr off9 m
  | st sr off9 => exact Laws.OpcodeField.st sr off9 m
  | ldi dr off9 => exact Laws.OpcodeField.ldi dr off9 m
  | sti sr off9 => exact Laws.OpcodeField.sti sr off9 m
  | ldr dr base off6 => exact Laws.OpcodeField.ldr dr base off6 m
  | str sr base off6 => exact Laws.OpcodeField.str sr base off6 m
  | lea dr off9 => exact Laws.OpcodeField.lea dr off9 m
  | trap v => exact Laws.OpcodeField.trap v m
  | trapGetc => exact Laws.OpcodeField.trapGetc m
  | trapOut => exact Laws.OpcodeField.trapOut m
  | trapPuts => exact Laws.OpcodeField.trapPuts m
  | trapIn => exact Laws.OpcodeField.trapIn m
  | trapPutsp => exact Laws.OpcodeField.trapPutsp m
  | trapHalt => exact Laws.OpcodeField.trapHalt m
  | rti => exact Laws.OpcodeField.rti m
  | reserved => exact Laws.OpcodeField.reserved m

theorem fieldVect8_trapWord (m : OpMap) (v : BitVec 8) : fieldVect8 (trapWord m v) = v :=
  BitVec.extractLsb'_append_eq_right

theorem decodeTrap_of_not_service {v : BitVec 8} (h : v ∉ serviceVectors) : decodeTrap v = .trap v := by
  simp [serviceVectors] at h
  simp [decodeTrap, h]

/-- Decode after encode: the opcode gives the class back, and each field is read off the piece that holds it. -/
theorem decodeWith_encodeWith {m : OpMap} (hm : m.Bijective) {i : Instr} (hwf : i.wellFormed = true) :
    decodeWith m (encodeWith m i) = i := by
  unfold decodeWith
  rw [fieldOp_encodeWith, hm.1]
  cases i with
  | addReg | andReg | addImm | andImm | not | br | jmp | jsr | jsrr | ld | st | ldi | sti | ldr | str | lea =>
    simp (disch := decide) only [Instr.opClass, encodeWith, fieldDr, fieldSr1, fieldSr2, fieldBit11, fieldBit10,
      fieldBit9, fieldMode, fieldImm5, fieldOff6, fieldOff9, fieldOff11, BitVec.getLsbD_append,
      BitVec.extractLsb'_append_eq_of_le, BitVec.extractLsb'_append_eq_of_add_le, BitVec.extractLsb'_eq_self,
      BitVec.reduceGetLsb, Nat.reduceSub, Nat.reduceLT, if_true, if_false, Bool.false_eq_true, toFin_regBits,
      getLsbD_bit_zero]
  | trap v =>
    have hv : v ∉ serviceVectors := by simpa [Instr.wellFormed] using hwf
    exact (congrArg decodeTrap (fieldVect8_trapWord m v)).trans (decodeTrap_of_not_service hv)
  | trapGetc | trapOut | trapPuts | trapIn | trapPutsp | trapHalt => exact congrArg decodeTrap (fieldVect8_trapWord m _)
  | rti | reserved => rfl

/-- R95: the map the machine uses is a bijection. -/
theorem bijective_opMap : opMap.Bijective := ⟨fun c => by cases c <;> rfl, by decide⟩

theorem decode_encode {i : Instr} (hwf : i.wellFormed = true) : decode (encode i) = i :=
  decodeWith_encodeWith bijective_opMap hwf

end Sys2Proof

namespace Sys2Proof.Machine

/-! The loader `withFetchWord` (notes/assumptions/27.md). -/

theorem fetchSlot_ne_kbsrAddr (s : State) : s.fetchSlot ≠ params.kbsrAddr := by
  unfold State.fetchSlot
  split
  · decide
  · assumption

/-- A whole word loaded: it stands at `fetchSlot`, where `pc` is, and the machine is in RUNNING. -/
theorem withFetchWord_word (s : State) (w : Word) :
    s.withFetchWord 16 w.toNat = ((memWrite s.fetchSlot w s).setPc s.fetchSlot).setRun .running := by
  have hw : BitVec.ofNat 16 (w.toNat % 2 ^ 16) = w := by
    rw [Nat.mod_eq_of_lt w.isLt, BitVec.ofNat_toNat, BitVec.setWidth_eq]
  rw [State.withFetchWord, hw]
  rfl

/-- Settles O46: the step fetches the loaded word, which decodes to the instruction. -/
theorem withFetchWordRunsInstruction : Obligations.WithFetchWordRunsInstruction := by
  intro s i hwf
  rw [withFetchWord_word]
  refine ⟨(((memWrite s.fetchSlot (encode i) s).setPc s.fetchSlot).setRun .running).setPc (s.fetchSlot + 1), ?_, rfl,
    fun _ _ => rfl, rfl, rfl, memory_memWrite s s.fetchSlot (encode i), rfl, rfl, rfl⟩
  rw [step_running_ordinary rfl (fetchSlot_ne_kbsrAddr s)]
  simp [memWrite, decode_encode hwf]

end Sys2Proof.Machine
end

section
/-! PROOFS. Registers, flags, reset, the fetch, and the host's moves (10_state.md R20 to R30, R37, R41). -/

namespace Sys2Proof.Machine

/-! Registers and flags. -/

/-- Settles O14: the rules of a register write. -/
theorem registerWriteReadsBack : Obligations.RegisterWriteReadsBack := by
  intro s r v
  have hother : RegsExcept [r] s (s.setReg r v) := fun r' hr =>
    State.reg_setReg_ne s v (List.ne_of_not_mem_cons hr)
  exact ⟨State.reg_setReg_same s r v, hother, rfl, rfl, rfl, rfl, rfl, rfl, rfl⟩

theorem classify_eq_Z_iff {v : Word} : classify v = .Z ↔ v = 0 := by
  unfold classify
  split_ifs <;> simp_all

theorem classify_eq_N_iff {v : Word} : classify v = .N ↔ v.getLsbD 15 = true := by
  unfold classify
  split_ifs <;> simp_all

theorem getLsbD_15_eq_decide (v : Word) : v.getLsbD 15 = decide (0x8000 ≤ v.toNat) :=
  (BitVec.msb_eq_getLsbD_last v).symm.trans (BitVec.msb_eq_decide v)

/-- P is what is neither Z nor N: not zero, and bit 15 clear. -/
theorem classify_eq_P_iff {v : Word} : classify v = .P ↔ 1 ≤ v.toNat ∧ v.toNat ≤ 0x7FFF := by
  have hz : v = 0 ↔ v.toNat = 0 := BitVec.toNat_eq
  simp only [classify, getLsbD_15_eq_decide, decide_eq_true_eq, hz]
  split_ifs <;> simp only [true_iff, false_iff] <;> omega

/-- Settles O15: `setcc` classifies the register's value. -/
theorem setccMatchesValue : Obligations.SetccMatchesValue := fun _ _ =>
  ⟨classify_eq_Z_iff, classify_eq_N_iff, classify_eq_P_iff⟩

/-- Settles O16: the three flags, and for each the eight combinations of the test bits. -/
theorem branchTestIsOneHotMask : Obligations.BranchTestIsOneHotMask := by
  intro n z p cc
  refine ⟨by cases cc <;> decide, ?_⟩
  cases cc <;> revert n z p <;> decide

/-! The poll as stores. -/

theorem readWord_memWrite_same (a v : Word) (s : State) : (memWrite a v s).mem.readWord a = v :=
  Memory.readWord_writeWord_same s.mem a v

/-- An unsuccessful poll is a store of zero at the status address. -/
theorem poll_nil_eq_memWrite {s : State} (h : s.kbd = []) : s.poll = memWrite params.kbsrAddr 0 s :=
  State.poll_nil h

/-- A successful poll takes the head key and makes two stores. -/
theorem poll_cons_eq_memWrite {s : State} {b : Byte} {rest : List Byte} (h : s.kbd = b :: rest) :
    s.poll = memWrite params.kbdrAddr (zext b) (memWrite params.kbsrAddr params.kbsrReady (s.setKbd rest)) :=
  State.poll_cons h

theorem readWord_kbsr_poll_cons {s : State} {b : Byte} {rest : List Byte} (h : s.kbd = b :: rest) :
    s.poll.mem.readWord params.kbsrAddr = params.kbsrReady := by
  simp [State.poll_cons h, Memory.readWord_writeWord_ne _ _ params_kbsr_ne_kbdr]

theorem readWord_kbdr_poll_cons {s : State} {b : Byte} {rest : List Byte} (h : s.kbd = b :: rest) :
    s.poll.mem.readWord params.kbdrAddr = zext b := by
  simp [State.poll_cons h]

/-! Reset. -/

/-- Settles O56: the reset memory is the empty list of cells. -/
theorem resetMemoryIsCanonical : Obligations.ResetMemoryIsCanonical := rfl

theorem readWord_nil (a : Word) : Memory.readWord [] a = 0 := by
  simp [Memory.readWord, unlistedByte]

/-- Settles O9: with the queue `b :: rest` the bus read is a successful poll. -/
theorem resetMemoryAndPorts : Obligations.ResetMemoryAndPorts := by
  refine ⟨readWord_nil, rfl, rfl, rfl, rfl, rfl, fun b rest => ?_⟩
  have hk : (State.reset.setKbd (b :: rest)).kbd = b :: rest := rfl
  generalize State.reset.setKbd (b :: rest) = s at hk
  exact ⟨memRead_status_cons hk, readWord_kbsr_poll_cons hk, readWord_kbdr_poll_cons hk⟩

/-! The bus read and the fetch. -/

/-- What R52 and R53 say holds of every bus read. -/
theorem busRead_memRead (a : Word) (s : State) : BusRead a s (memRead a s).1 (memRead a s).2 := by
  refine ⟨fun ha => ⟨memRead_ordinary s ha, readEffect_ordinary s ha⟩, ?_, ?_, fun r _ => reg_readEffect s a r,
    pc_readEffect s a, cc_readEffect s a, run_readEffect s a, out_readEffect s a, notes_readEffect s a⟩
  · rintro rfl hk
    rw [memRead_snd, readEffect_status, poll_nil_eq_memWrite hk]
    exact ⟨memRead_status_nil hk, readWord_memWrite_same _ _ s, memory_memWrite s _ _, hk⟩
  · rintro b rest rfl hk
    have hs : MemoryExcept [params.kbsrAddr] s (memWrite params.kbsrAddr params.kbsrReady (s.setKbd rest)) :=
      memory_memWrite (s.setKbd rest) _ _
    rw [memRead_snd, readEffect_status]
    refine ⟨memRead_status_cons hk, readWord_kbsr_poll_cons hk, ?_, ?_, by simp [State.poll_cons hk]⟩
    · rw [readWord_kbdr_poll_cons hk, toNat_zext (by decide)]
    · rw [poll_cons_eq_memWrite hk]
      exact (hs.mono (by simp)).trans ((memory_memWrite _ _ _).mono (by simp))

/-- The fetch with its increment taken back is the bus read of `pc`. -/
theorem setPc_fetch (s : State) : (fetch s).2.setPc s.pc = (memRead s.pc s).2 :=
  congrArg (readEffect s.pc s).setPc (pc_readEffect s s.pc).symm

/-- Settles O20: the increment, the bus read, and the store seen by the next fetch. -/
theorem fetchReadsThenIncrements : Obligations.FetchReadsThenIncrements := by
  intro s
  refine ⟨BitVec.toNat_add s.pc 1, ?_, fun v hpc => ?_⟩
  · rw [setPc_fetch]
    exact busRead_memRead s.pc s
  · rw [fetch_ordinary (s := memWrite s.pc v s) hpc]
    exact readWord_memWrite_same s.pc v s

/-- Settles O48: the three run states. -/
theorem stepExistsOnlyInRunning : Obligations.StepExistsOnlyInRunning := fun _ =>
  ⟨fun _ => running_of_step, fun h => by simp [step, h], fun h => by simp [step, h]⟩

/-! The host's moves. -/

/-- GETC and IN are one service, each under its own mode. -/
theorem exec_readChar {i : Instr} (hi : i = .trapGetc ∨ i = .trapIn) (s : State) :
    ∃ mode, exec i s = readCharService mode s := by
  rcases hi with rfl | rfl
  · exact ⟨.none, rfl⟩
  · exact ⟨options.inEcho, rfl⟩

/-- Settles O36: the fetched GETC or IN finds the appended key. -/
theorem hostKeyLiftsHold : Obligations.HostKeyLiftsHold := by
  intro s b bs hrun hk hpc hi
  have hkbd : ((s.hostAppend (b :: bs)).setPc (s.pc + 1)).kbd = b :: bs := by simp [State.hostAppend, hk]
  obtain ⟨mode, hexec⟩ := exec_readChar hi ((s.hostAppend (b :: bs)).setPc (s.pc + 1))
  have hstep : step (s.hostAppend (b :: bs)) = _ := step_running_ordinary hrun hpc
  refine ⟨_, (hstep.trans hexec).trans (readCharService_cons hkbd mode), by simp, ?_, rfl, rfl, hrun⟩
  rw [State.reg_emit, State.reg_writeDest_ne _ _ (by decide)]
  exact State.reg_link_same _

/-- In a terminal run state no move does anything but to append its byte. -/
theorem playWith_ended (o : Options) {s : State} (moves : List Move) (h : s.run ≠ .running) :
    playWith o moves s = .reached (s.setKbd (s.kbd ++ appendedBytes moves)) := by
  induction moves generalizing s with
  | nil => simp [playWith, appendedBytes, State.setKbd]
  | cons move moves ih =>
    cases move with
    | append b =>
      have hr : (s.hostAppend [b]).run ≠ .running := h
      rw [playWith, ih hr]
      simp [appendedBytes, State.hostAppend, State.setKbd]
    | step =>
      cases hs : s.run with
      | running => exact absurd hs h
      | halted | faulted => simp [playWith, appendedBytes, stepWith, hs, ih h]
    | abort =>
      cases hs : s.run with
      | running => exact absurd hs h
      | halted | faulted => simp [playWith, appendedBytes, hs, ih h]

/-- Settles O60: the equations of `playWith`, and the runs from a terminal state. -/
theorem hostMovesEndOrKeepRuns : Obligations.HostMovesEndOrKeepRuns := by
  refine ⟨fun _ _ => rfl, fun _ _ _ _ => rfl, fun o s moves hrun => by simp [playWith, hrun], fun o s moves h => ?_⟩
  rw [playWith_ended o moves h]
  exact ⟨rfl, fun hs => by simp [Played.ending, hs], fun hs => by simp [Played.ending, hs]⟩

end Sys2Proof.Machine
end

section
/-! PROOFS. Effective addresses, the bus, and what writes memory (20_memory.md R52 to R57, R62; 42_load_store.md R170). -/

namespace Sys2Proof.Machine

/-! Effective addresses. -/

/-- An extended field stands for its two's complement value: it is added to a word as that integer, modulo 65536. -/
theorem toNat_add_sext {n : Nat} (w : Word) (v : BitVec n) :
    ((w + sext v).toNat : Int) = (w.toNat + v.toInt) % 65536 := by
  have hsum : w + sext v = BitVec.ofInt 16 (w.toNat + v.toInt) := by
    rw [BitVec.ofInt_add, BitVec.ofInt_natCast, BitVec.ofNat_toNat, BitVec.setWidth_eq]
    rfl
  rw [hsum, BitVec.toNat_ofInt]
  exact Int.toNat_of_nonneg (Int.emod_nonneg _ (by decide))

/-- Settles O7: each effective address is a word plus an extended field. -/
theorem effectiveAddressesWrap : Obligations.EffectiveAddressesWrap := fun s =>
  ⟨toNat_add_sext s.pc, toNat_add_sext s.pc, fun base => toNat_add_sext (s.reg base)⟩

/-! The bus. -/

/-- Settles O17: the rules of a bus write, which hold at every address. -/
theorem busWriteIsPlainStore : Obligations.BusWriteIsPlainStore := fun a v s =>
  ⟨readWord_memWrite_same a v s, memory_memWrite s a v, fun _ _ => rfl, rfl, rfl, rfl, rfl, rfl, rfl⟩

/-- Settles O18: the rule of a bus read, shared with the fetch. -/
theorem busReadPollsAtStatusAddress : Obligations.BusReadPollsAtStatusAddress := busRead_memRead

/-! The fetch at the status address (R55, 70_reset_and_hazards.md R281). -/

theorem memRead_status (s : State) :
    (memRead params.kbsrAddr s).1 = if s.kbd = [] then 0 else params.kbsrReady := by
  cases h : s.kbd with
  | nil => exact memRead_status_nil h
  | cons b rest => exact memRead_status_cons h

/-- A poll takes the head key when one waits, and leaves an empty queue empty. -/
theorem kbd_poll (s : State) : s.poll.kbd = s.kbd.tail := by
  cases h : s.kbd with
  | nil => simp [State.poll_nil h, h]
  | cons b rest => simp [State.poll_cons h]

/-- Zero is a BR that tests no flag. -/
theorem exec_decode_zero (s : State) : exec (decode 0) s = .next s := rfl

/-- The ready word is an RTI. -/
theorem exec_decode_kbsrReady (s : State) : exec (decode params.kbsrReady) s = .next s := rfl

/-- A step at the status address does nothing after its fetch. -/
theorem step_at_status {s : State} (hrun : s.run = .running) (hpc : s.pc = params.kbsrAddr) :
    step s = .next (fetch s).2 := by
  have hword : (fetch s).1 = if s.kbd = [] then 0 else params.kbsrReady := by rw [fetch, hpc, memRead_status]
  rw [step_running hrun, hword]
  split
  · exact exec_decode_zero _
  · exact exec_decode_kbsrReady _

/-- Settles O47: the step leaves what its fetch leaves, the bus read with `pc` incremented. -/
theorem fetchAtStatusAddressIsNoOperation : Obligations.FetchAtStatusAddressIsNoOperation := by
  intro s hrun hpc
  have hkbd : (fetch s).2.kbd = s.kbd.tail := by simp [fetch, hpc, kbd_poll]
  have hu : KeptByReads s (readEffect s.pc s) := keptByReads_readEffect s s.pc
  refine ⟨by rw [fetch, hpc, memRead_status], (fetch s).2, step_at_status hrun hpc, rfl, ?_, rfl, fun r _ => hu.reg r,
    hu.cc, hu.run.trans hrun, hkbd, hu.out, hu.notes, hu.mem⟩
  rw [setPc_fetch]
  exact busRead_memRead s.pc s

/-! What writes memory (R53, R56; 43_trap_and_unused.md R210). -/

/-- Every form of a next state but the store writes at most the device words. -/
theorem Effect.memoryExcept_device {o : Options} {i : Instr} {s t : State} (h : Effect o s i t)
    (hs : storeAddress i s = none) : MemoryExcept [params.kbsrAddr, params.kbdrAddr] s t := by
  cases h with
  | store _ _ _ _ ha => simp [ha] at hs
  | destination _ _ _ _ _ hu | print _ hu => exact hu.mem
  | unknown => exact fun k _ => by rw [mem_afterUnknown]
  | jump | call | nothing | held | key | halt => exact fun _ _ => rfl

/-- Of the forms of a next state only the store has an address, and it writes there after the reads of its pointer. -/
theorem Effect.memoryExcept_store {o : Options} {i : Instr} {s t : State} {a : Word} (h : Effect o s i t)
    (ha : storeAddress i s = some a) : MemoryExcept [params.kbsrAddr, params.kbdrAddr, a] s t := by
  cases h with
  | store _ _ _ _ hs hu =>
    obtain rfl := Option.some.inj (hs.symm.trans ha)
    exact (hu.mem.mono (by simp)).trans ((memory_memWrite _ _ _).mono (by simp))
  | destination _ _ _ _ hs | jump _ _ _ _ hs | call _ _ _ _ hs | nothing _ _ _ hs => simp [hs] at ha
  | held hi | key hi => rcases hi with rfl | rfl <;> simp [storeAddress] at ha
  | print hi => rcases hi with rfl | rfl | rfl <;> simp [storeAddress] at ha
  | halt | unknown => simp [storeAddress] at ha

/-- Settles O53: with an address the form is a store, with none it is another. -/
theorem memoryWrittenOnlyByStoresAndPolls : Obligations.MemoryWrittenOnlyByStoresAndPolls := fun _ _ _ hwf h =>
  ⟨fun _ => (exec_effect hwf h).memoryExcept_store, (exec_effect hwf h).memoryExcept_device⟩

end Sys2Proof.Machine
end

section
/-! PROOFS. The decoder and the encoder, field by field (30_encoding.md R90 to R102, R107). -/

namespace Sys2Proof

open Sys2Proof.Machine

/-- Settles O3: the law of decode after encode. -/
theorem decodeOfEncodeIsIdentity : Obligations.DecodeOfEncodeIsIdentity :=
  fun _ _ hm hwf => decodeWith_encodeWith hm hwf

/-- Settles O5: well-formedness class by class, and the map in use. -/
theorem everyWordDecodesWellFormed : Obligations.EveryWordDecodesWellFormed :=
  ⟨wellFormed_decodeWith, bijective_opMap⟩

/-- Settles O1: the decoder evaluated on each word. -/
theorem decodeOfWrittenOutWords : Obligations.DecodeOfWrittenOutWords := by
  unfold Obligations.DecodeOfWrittenOutWords
  decide

/-! Words that agree in the bits of a mask decode alike, if the mask holds what the form reads (R99). -/

/-- A field inside the mask is the same in both words. -/
theorem extractLsb'_eq_of_and_eq {k w w' : Word} {start len : Nat} (h : w' &&& k = w &&& k)
    (hk : k.extractLsb' start len = BitVec.allOnes len) : w'.extractLsb' start len = w.extractLsb' start len := by
  simpa only [BitVec.extractLsb'_and, hk, BitVec.and_allOnes] using congrArg (BitVec.extractLsb' start len) h

/-- A bit inside the mask is the same in both words. -/
theorem getLsbD_eq_of_and_eq {k w w' : Word} {j : Nat} (h : w' &&& k = w &&& k) (hk : k.getLsbD j = true) :
    w'.getLsbD j = w.getLsbD j := by
  simpa only [BitVec.getLsbD_and, hk, Bool.and_true] using congrArg (·.getLsbD j) h

/-- Every form reads the opcode. -/
theorem extractLsb'_careMask_opcode (i : Instr) : (careMask i).extractLsb' 12 4 = BitVec.allOnes 4 := by
  cases i <;> simp [careMask]

/-- Every form a vector selects reads the opcode and the vector. -/
theorem careMask_decodeTrap (v : BitVec 8) : careMask (decodeTrap v) = 0xF0FF#16 := by
  unfold decodeTrap
  split_ifs <;> rfl

/-- The class is read first, then the mode bit where the class has one, then the fields of the form. -/
theorem decodeWith_eq_of_agree {m : OpMap} {w w' : Word}
    (h : w' &&& careMask (decodeWith m w) = w &&& careMask (decodeWith m w)) : decodeWith m w' = decodeWith m w := by
  have hop : fieldOp w' = fieldOp w := extractLsb'_eq_of_and_eq h (extractLsb'_careMask_opcode _)
  unfold decodeWith at h ⊢
  rw [hop]
  cases hc : m.classOf (fieldOp w) with
  | rti | reserved => rfl
  | trap =>
    simp only [hc, careMask_decodeTrap] at h
    exact congrArg decodeTrap (extractLsb'_eq_of_and_eq h rfl)
  | add | and =>
    cases hb : fieldMode w
    all_goals
      simp only [hc, hb, careMask, if_true, if_false, Bool.false_eq_true] at h
      have hb' : fieldMode w' = _ := (getLsbD_eq_of_and_eq h rfl).trans hb
      simp (disch := decide) only [hb', if_true, if_false, Bool.false_eq_true, fieldDr, fieldSr1, fieldSr2, fieldImm5,
        extractLsb'_eq_of_and_eq h]
  | jsr =>
    cases hb : fieldBit11 w
    all_goals
      simp only [hc, hb, careMask, if_true, if_false, Bool.false_eq_true] at h
      have hb' : fieldBit11 w' = _ := (getLsbD_eq_of_and_eq h rfl).trans hb
      simp (disch := decide) only [hb', if_true, if_false, Bool.false_eq_true, fieldSr1, fieldOff11,
        extractLsb'_eq_of_and_eq h]
  | not | br | jmp | ld | st | ldi | sti | ldr | str | lea =>
    simp only [hc, careMask] at h
    simp (disch := decide) only [fieldDr, fieldSr1, fieldOff6, fieldOff9, fieldBit11, fieldBit10, fieldBit9,
      extractLsb'_eq_of_and_eq h, getLsbD_eq_of_and_eq h]

/-- A word that agrees with an instruction's word in the bits the instruction reads decodes to it. -/
theorem decodeWith_of_agree_encodeWith {m : OpMap} (hm : m.Bijective) {i : Instr} (hwf : i.wellFormed = true) {w : Word}
    (h : w &&& careMask i = encodeWith m i &&& careMask i) : decodeWith m w = i := by
  have hi : decodeWith m (encodeWith m i) = i := decodeWith_encodeWith hm hwf
  exact (decodeWith_eq_of_agree (by rwa [hi])).trans hi

/-! Don't-care bits lie outside the mask: words that differ there only agree under it (R99). The mask is written in
the pieces of the word. -/

/-- ADD and AND, register form: bits 4:3. -/
theorem agree_operateReg (p : BitVec 11) (x y : BitVec 2) (q : BitVec 3) :
    (p ++ x ++ q) &&& 0xFFE7#16 = (p ++ y ++ q) &&& 0xFFE7#16 := by
  change _ &&& (BitVec.allOnes 11 ++ 0#2 ++ BitVec.allOnes 3) = _ &&& (BitVec.allOnes 11 ++ 0#2 ++ BitVec.allOnes 3)
  simp only [BitVec.and_append, BitVec.and_zero]

/-- NOT: bits 5:0. -/
theorem agree_not (p : BitVec 10) (x y : BitVec 6) : (p ++ x) &&& 0xFFC0#16 = (p ++ y) &&& 0xFFC0#16 := by
  change _ &&& (BitVec.allOnes 10 ++ 0#6) = _ &&& (BitVec.allOnes 10 ++ 0#6)
  simp only [BitVec.and_append, BitVec.and_zero]

/-- JMP: bits 11:9 and 5:0. -/
theorem agree_jmp (p : BitVec 4) (x x' b : BitVec 3) (y y' : BitVec 6) :
    (p ++ x ++ b ++ y) &&& 0xF1C0#16 = (p ++ x' ++ b ++ y') &&& 0xF1C0#16 := by
  change _ &&& (BitVec.allOnes 4 ++ 0#3 ++ BitVec.allOnes 3 ++ 0#6) =
    _ &&& (BitVec.allOnes 4 ++ 0#3 ++ BitVec.allOnes 3 ++ 0#6)
  simp only [BitVec.and_append, BitVec.and_zero]

/-- JSRR: bits 10:9 and 5:0. -/
theorem agree_jsrr (p : BitVec 5) (x x' : BitVec 2) (b : BitVec 3) (y y' : BitVec 6) :
    (p ++ x ++ b ++ y) &&& 0xF9C0#16 = (p ++ x' ++ b ++ y') &&& 0xF9C0#16 := by
  change _ &&& (BitVec.allOnes 5 ++ 0#2 ++ BitVec.allOnes 3 ++ 0#6) =
    _ &&& (BitVec.allOnes 5 ++ 0#2 ++ BitVec.allOnes 3 ++ 0#6)
  simp only [BitVec.and_append, BitVec.and_zero]

/-- TRAP: bits 11:8. -/
theorem agree_trap (p x y : BitVec 4) (v : BitVec 8) : (p ++ x ++ v) &&& 0xF0FF#16 = (p ++ y ++ v) &&& 0xF0FF#16 := by
  change _ &&& (BitVec.allOnes 4 ++ 0#4 ++ BitVec.allOnes 8) = _ &&& (BitVec.allOnes 4 ++ 0#4 ++ BitVec.allOnes 8)
  simp only [BitVec.and_append, BitVec.and_zero]

/-- RTI and the reserved class: bits 11:0. -/
theorem agree_unused (p : BitVec 4) (x y : BitVec 12) : (p ++ x) &&& 0xF000#16 = (p ++ y) &&& 0xF000#16 := by
  change _ &&& (BitVec.allOnes 4 ++ 0#12) = _ &&& (BitVec.allOnes 4 ++ 0#12)
  simp only [BitVec.and_append, BitVec.and_zero]

/-- Settles O2: each line of R94 is the instruction's own word (`read rfl rfl`) or agrees with it outside the don't-care
bits. -/
theorem decodeReadsEveryFormat : Obligations.DecodeReadsEveryFormat := by
  intro m hm
  have read {i : Instr} (hwf : i.wellFormed = true) {w : Word}
      (h : w &&& careMask i = encodeWith m i &&& careMask i) : decodeWith m w = i :=
    decodeWith_of_agree_encodeWith hm hwf h
  refine ⟨fun dr sr1 sr2 x => ⟨read rfl (agree_operateReg _ x _ _), read rfl (agree_operateReg _ x _ _)⟩,
    fun dr sr1 imm5 => ⟨read rfl rfl, read rfl rfl⟩,
    fun dr sr1 x => read rfl (agree_not _ x _),
    fun n z p off9 => read rfl rfl,
    fun base x y => read rfl (agree_jmp _ x _ _ y _),
    fun off11 => read rfl rfl,
    fun base x y => read rfl (agree_jsrr _ x _ _ y _),
    fun r off9 => ⟨read rfl rfl, read rfl rfl, read rfl rfl, read rfl rfl, read rfl rfl⟩,
    fun r base off6 => ⟨read rfl rfl, read rfl rfl⟩,
    fun x => ?_,
    fun x => ⟨read rfl (agree_unused _ x _), read rfl (agree_unused _ x _)⟩⟩
  have trap (v : BitVec 8) : (m.codeOf .trap ++ x ++ v) &&& 0xF0FF#16 = trapWord m v &&& 0xF0FF#16 :=
    agree_trap _ x _ v
  refine ⟨read rfl (trap _), read rfl (trap _), read rfl (trap _), read rfl (trap _),
    read rfl (trap _), read rfl (trap _), fun v hv => read ?_ (trap v)⟩
  simpa [Instr.wellFormed] using hv

/-! The pieces of a word, put together again: one law for each layout of R94, don't-care bits included. -/

theorem regBits_fieldDr (w : Word) : regBits (fieldDr w) = w.extractLsb' 9 3 := rfl

theorem regBits_fieldSr1 (w : Word) : regBits (fieldSr1 w) = w.extractLsb' 6 3 := rfl

theorem regBits_fieldSr2 (w : Word) : regBits (fieldSr2 w) = w.extractLsb' 0 3 := rfl

theorem bit_getLsbD (w : Word) (j : Nat) : bit (w.getLsbD j) = w.extractLsb' j 1 := by
  ext i hi
  obtain rfl : i = 0 := by omega
  simp [bit]

/-- LD, ST, LDI, STI, LEA. -/
theorem layout_off9 (w : Word) : fieldOp w ++ regBits (fieldDr w) ++ fieldOff9 w = w := by
  simp (disch := rfl) only [fieldOp, regBits_fieldDr, fieldOff9, BitVec.extractLsb'_append_extractLsb'_eq_extractLsb']
  exact BitVec.extractLsb'_eq_self

/-- LDR, STR; and JMP and NOT, where bits 11:9 and 5:0, or 5:0, are don't-care bits. -/
theorem layout_off6 (w : Word) : fieldOp w ++ regBits (fieldDr w) ++ regBits (fieldSr1 w) ++ fieldOff6 w = w := by
  simp (disch := rfl) only [fieldOp, regBits_fieldDr, regBits_fieldSr1, fieldOff6,
    BitVec.extractLsb'_append_extractLsb'_eq_extractLsb']
  exact BitVec.extractLsb'_eq_self

/-- ADD and AND, immediate form. -/
theorem layout_imm5 (w : Word) :
    fieldOp w ++ regBits (fieldDr w) ++ regBits (fieldSr1 w) ++ bit (fieldMode w) ++ fieldImm5 w = w := by
  simp (disch := rfl) only [fieldOp, regBits_fieldDr, regBits_fieldSr1, fieldMode, bit_getLsbD, fieldImm5,
    BitVec.extractLsb'_append_extractLsb'_eq_extractLsb']
  exact BitVec.extractLsb'_eq_self

/-- ADD and AND, register form. -/
theorem layout_sr2 (w : Word) :
    fieldOp w ++ regBits (fieldDr w) ++ regBits (fieldSr1 w) ++ bit (fieldMode w) ++ w.extractLsb' 3 2 ++
      regBits (fieldSr2 w) = w := by
  simp (disch := rfl) only [fieldOp, regBits_fieldDr, regBits_fieldSr1, fieldMode, bit_getLsbD, regBits_fieldSr2,
    BitVec.extractLsb'_append_extractLsb'_eq_extractLsb']
  exact BitVec.extractLsb'_eq_self

/-- BR. -/
theorem layout_br (w : Word) :
    fieldOp w ++ bit (fieldBit11 w) ++ bit (fieldBit10 w) ++ bit (fieldBit9 w) ++ fieldOff9 w = w := by
  simp (disch := rfl) only [fieldOp, fieldBit11, fieldBit10, fieldBit9, bit_getLsbD, fieldOff9,
    BitVec.extractLsb'_append_extractLsb'_eq_extractLsb']
  exact BitVec.extractLsb'_eq_self

/-- JSR. -/
theorem layout_off11 (w : Word) : fieldOp w ++ bit (fieldBit11 w) ++ fieldOff11 w = w := by
  simp (disch := rfl) only [fieldOp, fieldBit11, bit_getLsbD, fieldOff11,
    BitVec.extractLsb'_append_extractLsb'_eq_extractLsb']
  exact BitVec.extractLsb'_eq_self

/-- JSRR. -/
theorem layout_jsrr (w : Word) :
    fieldOp w ++ bit (fieldBit11 w) ++ w.extractLsb' 9 2 ++ regBits (fieldSr1 w) ++ fieldOff6 w = w := by
  simp (disch := rfl) only [fieldOp, fieldBit11, bit_getLsbD, regBits_fieldSr1, fieldOff6,
    BitVec.extractLsb'_append_extractLsb'_eq_extractLsb']
  exact BitVec.extractLsb'_eq_self

/-- TRAP. -/
theorem layout_vect8 (w : Word) : fieldOp w ++ w.extractLsb' 8 4 ++ fieldVect8 w = w := by
  simp (disch := rfl) only [fieldOp, fieldVect8, BitVec.extractLsb'_append_extractLsb'_eq_extractLsb']
  exact BitVec.extractLsb'_eq_self

/-- RTI and the reserved class. -/
theorem layout_unused (w : Word) : fieldOp w ++ w.extractLsb' 0 12 = w := by
  simp (disch := rfl) only [fieldOp, BitVec.extractLsb'_append_extractLsb'_eq_extractLsb']
  exact BitVec.extractLsb'_eq_self

/-- The vector a form stands for is the one it was selected by. -/
theorem encodeWith_decodeTrap (m : OpMap) (v : BitVec 8) : encodeWith m (decodeTrap v) = trapWord m v := by
  unfold decodeTrap
  split_ifs <;> simp only [encodeWith, *]

/-- Encode after decode: the layout of the form gives the word back, but for its don't-care bits. -/
theorem encodeWith_decodeWith_agree {m : OpMap} (hm : m.Bijective) (w : Word) :
    encodeWith m (decodeWith m w) &&& careMask (decodeWith m w) = w &&& careMask (decodeWith m w) := by
  have hop : m.codeOf (m.classOf (fieldOp w)) = fieldOp w := hm.2 _
  unfold decodeWith
  cases hc : m.classOf (fieldOp w) <;> rw [hc] at hop <;> dsimp only
  case ld | st | ldi | sti | lea => rw [encodeWith, hop, layout_off9]
  case ldr | str => rw [encodeWith, hop, layout_off6]
  case br => rw [encodeWith, hop, layout_br]
  case not =>
    rw [encodeWith, hop]
    exact (agree_not _ _ (fieldOff6 w)).trans (congrArg (· &&& _) (layout_off6 w))
  case jmp =>
    rw [encodeWith, hop]
    exact (agree_jmp _ _ (regBits (fieldDr w)) _ _ (fieldOff6 w)).trans (congrArg (· &&& _) (layout_off6 w))
  case trap =>
    rw [encodeWith_decodeTrap, careMask_decodeTrap, trapWord, hop]
    exact (agree_trap _ _ (w.extractLsb' 8 4) _).trans (congrArg (· &&& _) (layout_vect8 w))
  case rti | reserved =>
    rw [encodeWith, hop]
    exact (agree_unused _ _ (w.extractLsb' 0 12)).trans (congrArg (· &&& _) (layout_unused w))
  case add | and =>
    have hreg := layout_sr2 w
    have himm := layout_imm5 w
    cases hb : fieldMode w <;> rw [hb, ← hop] at hreg himm
    · exact (agree_operateReg _ _ (w.extractLsb' 3 2) _).trans (congrArg (· &&& _) hreg)
    · exact congrArg (· &&& _) himm
  case jsr =>
    have hjsrr := layout_jsrr w
    have hjsr := layout_off11 w
    cases hb : fieldBit11 w <;> rw [hb, ← hop] at hjsrr hjsr
    · exact (agree_jsrr _ _ (w.extractLsb' 9 2) _ _ (fieldOff6 w)).trans (congrArg (· &&& _) hjsrr)
    · exact congrArg (· &&& _) hjsr

/-- Settles O4: encode after decode, and the decoder on words that agree. -/
theorem decodeReadsExactlyTheNamedBits : Obligations.DecodeReadsExactlyTheNamedBits := fun _ hm =>
  ⟨encodeWith_decodeWith_agree hm, fun _ _ => decodeWith_eq_of_agree⟩

end Sys2Proof
end

section
/-! PROOFS. A running machine always steps (00_scope.md R7; 30_encoding.md R100; 60_exceptions.md R240), and the unused
classes (43_trap_and_unused.md R208, R209). -/

namespace Sys2Proof.Machine

/-- Settles O43: neither has an effect of its own. -/
theorem unusedClassesDoNothing : Obligations.UnusedClassesDoNothing := by
  rintro s i (rfl | rfl) <;> exact ⟨s, rfl, fun _ _ => rfl, rfl, rfl, rfl, rfl, rfl, rfl, rfl⟩

/-- A scan within its bound answers a next state, or it meets a word without bytes and is refused. -/
theorem scanString_next_or_refused {chars : Word → Option (List Byte)} {n : Nat} {a : Word} {s : State}
    (h : 65536 * s.kbd.length + (params.kbsrAddr - a).toNat + 1 ≤ n) :
    (∃ t, scanString chars n a s = .next t) ∨
      (∃ w, chars w = none) ∧ scanString chars n a s = .refused .putsWideWord := by
  obtain ⟨ws, u, hl, hr⟩ := scanReads_total h
  by_cases hn : ∃ w ∈ ws, chars w = none
  · exact .inr ⟨hn.imp fun _ => And.right, scanString_refused hr hn hl⟩
  · push Not at hn
    exact .inl ⟨_, scanString_of_reads (f := fun w => (chars w).getD []) hr
      (fun w hw => (Option.getD_of_ne_none (hn w hw) _).symm) hl⟩

theorem refuse_of_putsEmit_eq_none {wide : PutsWide} {w : Word} (h : putsEmit wide w = none) : wide = .refuse := by
  cases wide with
  | refuse => rfl
  | lowByte => simp [putsEmit] at h

theorem putspEmit_ne_none (w : Word) : putspEmit w ≠ none := by
  unfold putspEmit
  split <;> simp

theorem readCharService_next (mode : InEcho) (s : State) : ∃ t, readCharService mode s = .next t := by
  cases h : s.kbd with
  | nil => exact ⟨_, readCharService_nil h mode⟩
  | cons b rest => exact ⟨_, readCharService_cons h mode⟩

/-- Every instruction answers a next state, but a PUTS that `PUTS_WIDE = refuse` refuses. -/
theorem execWith_next_or_refused (o : Options) {i : Instr} (hwf : i.wellFormed = true) (s : State) :
    (∃ t, execWith o i s = .next t) ∨
      (o.putsWide = .refuse ∧ i = .trapPuts ∧ execWith o i s = .refused .putsWideWord) := by
  cases i with
  | addReg | addImm | andReg | andImm | not | br | jmp | jsr | jsrr | ld | st | ldi | sti | ldr | str | lea | trapOut
  | trapHalt | rti | reserved => exact .inl ⟨_, rfl⟩
  | trapGetc => exact .inl (readCharService_next .none s)
  | trapIn => exact .inl (readCharService_next o.inEcho s)
  | trapPutsp => exact .inl (scanString_total putspEmit_ne_none (scanBound_enough _ s))
  | trapPuts =>
    obtain hnext | ⟨⟨w, hw⟩, href⟩ := scanString_next_or_refused (chars := putsEmit o.putsWide)
      (scanBound_enough (s.link.reg serviceReg) s)
    · exact .inl hnext
    · exact .inr ⟨refuse_of_putsEmit_eq_none hw, rfl, href⟩
  | trap v =>
    have hv : v ∉ serviceVectors := by simpa [Instr.wellFormed] using hwf
    exact .inl ⟨_, (trapWith_unknown s hv o).trans (unknownVector_eq _ v s)⟩

theorem stepWith_next_or_refused (o : Options) {s : State} (hrun : s.run = .running) :
    (∃ t, stepWith o s = .next t) ∨ (o.putsWide = .refuse ∧ decodeWith o.opMap (fetch s).1 = .trapPuts ∧
      stepWith o s = .refused .putsWideWord) := by
  rw [stepWith_running hrun]
  exact execWith_next_or_refused o (wellFormed_decodeWith _ _) _

/-- Settles O49: the law of `stepWith`; the machine's own `options` refuse nothing. -/
theorem runningMachineAlwaysSteps : Obligations.RunningMachineAlwaysSteps := by
  refine fun s hrun => ⟨?_, fun o => stepWith_next_or_refused o hrun⟩
  rw [← stepWith_options]
  exact (stepWith_next_or_refused options hrun).resolve_right fun h => nomatch h.1

end Sys2Proof.Machine
end

section
/-! PROOFS. ADD, AND, NOT (40_operate.md R130 to R133). -/

namespace Sys2Proof.Machine

/-! What the write of a destination register leaves unchanged (10_state.md R28). -/

theorem regsExcept_writeDest (s : State) (dr : Reg) (v : Word) : RegsExcept [dr] s (s.writeDest dr v) := fun _ hr =>
  State.reg_writeDest_ne s v (List.ne_of_not_mem_cons hr)

theorem onlyRegistersChange_writeDest (s : State) (dr : Reg) (v : Word) : OnlyRegistersChange s (s.writeDest dr v) :=
  ⟨State.mem_writeDest s dr v, State.run_writeDest s dr v, State.kbd_writeDest s dr v, State.out_writeDest s dr v,
    State.notes_writeDest s dr v⟩

theorem cc_writeDest_eq_classify_reg (s : State) (dr : Reg) (v : Word) :
    (s.writeDest dr v).cc = classify ((s.writeDest dr v).reg dr) := by
  rw [State.cc_writeDest, State.reg_writeDest_same]

/-- R130, said once for every operate instruction: one that does no more than write `v` to `dr` completes, and what `P`
says of `v` holds of the destination. -/
theorem exec_completes_of_writeDest {i : Instr} {s : State} {dr : Reg} {v : Word} (P : Word → Prop)
    (hexec : exec i s = .next (s.writeDest dr v)) (hv : P v) :
    ∃ t, exec i s = .next t ∧ P (t.reg dr) ∧ t.cc = classify (t.reg dr) ∧ RegsExcept [dr] s t ∧ t.pc = s.pc ∧
      OnlyRegistersChange s t := by
  have hdest : P ((s.writeDest dr v).reg dr) := (State.reg_writeDest_same s dr v).symm ▸ hv
  exact ⟨_, hexec, hdest, cc_writeDest_eq_classify_reg s dr v, regsExcept_writeDest s dr v,
    State.pc_writeDest s dr v, onlyRegistersChange_writeDest s dr v⟩

/-- Settles O21: both forms write the sum of two words, whose value is the sum modulo 65536. -/
theorem addWritesSumModulo65536 : Obligations.AddWritesSumModulo65536 := fun s _ sr1 sr2 imm5 =>
  ⟨exec_completes_of_writeDest (fun v => v.toNat = ((s.reg sr1).toNat + (s.reg sr2).toNat) % 65536) rfl
      (BitVec.toNat_add (s.reg sr1) (s.reg sr2)),
    exec_completes_of_writeDest (fun v => v.toNat = ((s.reg sr1).toNat + (sext imm5).toNat) % 65536) rfl
      (BitVec.toNat_add (s.reg sr1) (sext imm5))⟩

/-- Settles O22: both forms write the conjunction of two words, taken bit by bit. -/
theorem andWritesConjunction : Obligations.AndWritesConjunction := fun s _ sr1 sr2 imm5 =>
  ⟨exec_completes_of_writeDest (fun v => ∀ k, v.getLsbD k = ((s.reg sr1).getLsbD k && (s.reg sr2).getLsbD k)) rfl
      fun _ => BitVec.getLsbD_and,
    exec_completes_of_writeDest (fun v => ∀ k, v.getLsbD k = ((s.reg sr1).getLsbD k && (sext imm5).getLsbD k)) rfl
      fun _ => BitVec.getLsbD_and⟩

/-- Settles O23: the complement of a word is 65535 minus its value. -/
theorem notWritesComplement : Obligations.NotWritesComplement := fun s _ sr1 =>
  exec_completes_of_writeDest (fun v => v.toNat = 65535 - (s.reg sr1).toNat) rfl BitVec.toNat_not

end Sys2Proof.Machine
end

section
/-! PROOFS. BR, JMP, JSR, JSRR (41_control.md R150 to R154). -/

namespace Sys2Proof.Machine

/-! What a transfer of control leaves unchanged: with no link (BR, JMP) and with one (JSR, JSRR). -/

section ControlFrame

variable (s : State) (p : Word)

theorem regsExcept_setPc : RegsExcept [] s (s.setPc p) := fun r _ => State.reg_setPc s p r

theorem onlyRegistersChange_setPc : OnlyRegistersChange s (s.setPc p) :=
  ⟨State.mem_setPc s p, State.run_setPc s p, State.kbd_setPc s p, State.out_setPc s p, State.notes_setPc s p⟩

theorem regsExcept_link_setPc : RegsExcept [7] s (s.link.setPc p) := fun r hr =>
  (State.reg_setPc s.link p r).trans (State.reg_link_ne s (List.ne_of_not_mem_cons hr))

theorem onlyRegistersChange_link_setPc : OnlyRegistersChange s (s.link.setPc p) :=
  onlyRegistersChange_setPc s.link p

theorem reg_linkReg_link_setPc : (s.link.setPc p).reg linkReg = s.pc :=
  (State.reg_setPc s.link p linkReg).trans (State.reg_link_same s)

end ControlFrame

/-! The test of BR. -/

theorem branchTaken_iff {n z p : Bool} {cc : ConditionCode} :
    branchTaken n z p cc = true ↔ n = true ∧ cc = .N ∨ z = true ∧ cc = .Z ∨ p = true ∧ cc = .P := by
  simp [branchTaken, or_assoc]

/-- A BR that is not taken goes to the incremented `pc`, so in both cases BR is one assignment of `pc`. -/
theorem exec_br (n z p : Bool) (off9 : BitVec 9) (s : State) :
    exec (.br n z p off9) s = .next (s.setPc (if branchTaken n z p s.cc then pcRelative off9 s else s.pc)) :=
  congrArg Host.Outcome.next (apply_ite s.setPc _ (pcRelative off9 s) s.pc).symm

/-- Settles O24: the assigned `pc` is the target exactly when the test succeeds. -/
theorem branchTakenOnMatchingFlag : Obligations.BranchTakenOnMatchingFlag := fun s n z p off9 =>
  ⟨_, exec_br n z p off9 s, fun h => if_pos (branchTaken_iff.mpr h), fun h => if_neg (mt branchTaken_iff.mp h),
    regsExcept_setPc s _, State.cc_setPc s _, onlyRegistersChange_setPc s _⟩

/-- Settles O25: JMP is one assignment of `pc`. -/
theorem jumpGoesToBaseRegister : Obligations.JumpGoesToBaseRegister := fun s base =>
  ⟨s.setPc (s.reg base), rfl, State.pc_setPc s _, regsExcept_setPc s _, State.cc_setPc s _,
    onlyRegistersChange_setPc s _⟩

/-- Settles O26: JSR is the link and an assignment of `pc`. -/
theorem jsrLinksAndJumps : Obligations.JsrLinksAndJumps := fun s off11 =>
  ⟨s.link.setPc (pcRelative off11 s), rfl, reg_linkReg_link_setPc s _, State.pc_setPc s.link _,
    regsExcept_link_setPc s _, State.cc_setPc s.link _, onlyRegistersChange_link_setPc s _⟩

/-- Settles O27: the base is read after the link, which only a base of R7 sees (R154). -/
theorem jsrrLinksThenReadsBase : Obligations.JsrrLinksThenReadsBase := by
  intro s base
  have hother : base ≠ 7 → (s.link.setPc (s.link.reg base)).pc = s.reg base := State.reg_link_ne s
  have hlink : base = 7 → (s.link.setPc (s.link.reg base)).pc = s.pc := by
    rintro rfl
    exact State.reg_link_same s
  exact ⟨s.link.setPc (s.link.reg base), rfl, reg_linkReg_link_setPc s _, hother, hlink,
    regsExcept_link_setPc s _, State.cc_setPc s.link _, onlyRegistersChange_link_setPc s _⟩

end Sys2Proof.Machine
end

section
/-! PROOFS. LD, LDR, LDI, ST, STR, STI, LEA (42_load_store.md R170 to R177). -/

namespace Sys2Proof.Machine

/-- R170, said once for every load: one that loads `dr` from `a` after the bus reads of its pointer, if it has one,
completes; the last bus read gives the word and leaves the memory and the keyboard. -/
theorem exec_completes_of_loadFrom {i : Instr} {s u : State} {dr : Reg} {a : Word} (hu : KeptByReads s u)
    (hexec : exec i s = .next (loadFrom dr a u)) :
    ∃ t, exec i s = .next t ∧ t.reg dr = (memRead a u).1 ∧ t.cc = classify (t.reg dr) ∧ RegsExcept [dr] s t ∧
      t.pc = s.pc ∧ OnlyRegistersChange (memRead a u).2 t := by
  have hread : KeptByReads s (memRead a u).2 := hu.trans (keptByReads_readEffect u a)
  exact ⟨_, hexec, State.reg_writeDest_same _ dr _, cc_writeDest_eq_classify_reg _ dr _,
    fun r hr => (regsExcept_writeDest _ dr _ r hr).trans (hread.reg r), hread.pc, onlyRegistersChange_writeDest _ dr _⟩

/-- R170, said once for every store: one that writes `v` at `a` after the bus reads of its pointer, if it has one,
completes, and the bus write changes that one word of what the reads leave. -/
theorem exec_completes_of_memWrite {i : Instr} {s u : State} {a v : Word} (hu : KeptByReads s u)
    (hexec : exec i s = .next (memWrite a v u)) :
    ∃ t, exec i s = .next t ∧ t.mem.readWord a = v ∧ MemoryExcept [a] u t ∧ RegsExcept [] s t ∧ t.pc = s.pc ∧
      t.cc = s.cc ∧ t.run = s.run ∧ PortsKept u t :=
  ⟨_, hexec, readWord_memWrite_same a v u, memory_memWrite u a v, fun r _ => hu.reg r, hu.pc, hu.cc, hu.run,
    rfl, rfl, rfl⟩

/-- Settles O28: LD and LDR are one load, with no pointer read before it. -/
theorem loadsReadEffectiveAddress : Obligations.LoadsReadEffectiveAddress := fun s _ _ _ _ =>
  ⟨exec_completes_of_loadFrom (.refl s) rfl, exec_completes_of_loadFrom (.refl s) rfl⟩

/-- Settles O29: LDI is one load from the state its pointer read leaves. -/
theorem loadIndirectReadsTwice : Obligations.LoadIndirectReadsTwice := fun s _ off9 =>
  exec_completes_of_loadFrom (keptByReads_readEffect s (pcRelative off9 s)) rfl

/-- Settles O30: ST and STR are one bus write, with no read before it. -/
theorem storesWriteEffectiveAddress : Obligations.StoresWriteEffectiveAddress := fun s _ _ _ _ =>
  ⟨exec_completes_of_memWrite (.refl s) rfl, exec_completes_of_memWrite (.refl s) rfl⟩

/-- Settles O31: STI is one bus write on the state its pointer read leaves. -/
theorem storeIndirectWritesPointedWord : Obligations.StoreIndirectWritesPointedWord := fun s _ off9 =>
  exec_completes_of_memWrite (keptByReads_readEffect s (pcRelative off9 s)) rfl

/-- Settles O32: LEA does no more than write the address to its destination, as an operate instruction writes its
result. -/
theorem leaWritesAddress : Obligations.LeaWritesAddress := fun s _ off9 =>
  exec_completes_of_writeDest (· = pcRelative off9 s) rfl rfl

end Sys2Proof.Machine
end

section
/-! PROOFS. TRAP and its services (43_trap_and_unused.md R200 to R207, R210; 60_exceptions.md R248). -/

namespace Sys2Proof.Machine

/-! The link of a TRAP (R200, R248). -/

theorem regsExcept_link (s : State) : RegsExcept [7] s s.link := fun _ hr =>
  State.reg_link_ne s (List.ne_of_not_mem_cons hr)

/-- R0 is an argument of the services: the link leaves it. -/
theorem reg_serviceReg_link (s : State) : s.link.reg serviceReg = s.reg 0 := State.reg_link_ne s (by decide)

/-- Settles O55: each form of a next state that a TRAP has, but the held one, links and leaves `pc`. -/
theorem everyTrapLinksInR7 : Obligations.EveryTrapLinksInR7 := by
  intro s t i hi hheld hwf h
  have hlink : s.link.reg 7 = s.pc := State.reg_link_same s
  cases exec_effect hwf h with
  | destination hn | store hn | jump hn | call hn | nothing hn => exact absurd hi hn
  | held hi hk => simp [isHeld_iff.2 ⟨hi, hk⟩] at hheld
  | key => exact ⟨(State.reg_writeDest_ne _ _ (by decide)).trans hlink, rfl⟩
  | print _ hu => exact ⟨(hu.reg 7).trans hlink, hu.pc⟩
  | halt => exact ⟨hlink, rfl⟩
  | unknown => exact ⟨(reg_afterUnknown ..).trans hlink, pc_afterUnknown ..⟩

/-! GETC and IN (R201, R204). -/

/-- IN is GETC under the machine's `IN_ECHO = none`. -/
theorem exec_readChar_none {i : Instr} (hi : i = .trapGetc ∨ i = .trapIn) (s : State) :
    exec i s = readCharService .none s := by
  rcases hi with rfl | rfl <;> rfl

/-- A zero-extended key is never negative. -/
theorem classify_zext (b : Byte) : classify (zext b) = if b = 0 then .Z else .P := by
  have hval : (zext b).toNat = b.toNat := toNat_zext (by decide) b
  split
  · next hb => rw [hb]; rfl
  · next hb =>
    have hne : b.toNat ≠ 0 := fun h => hb (BitVec.eq_of_toNat_eq h)
    have hlt := b.isLt
    exact classify_eq_P_iff.2 (by omega)

/-- Settles O33: the service without an echo. -/
theorem getcAndInTakeHeadKey : Obligations.GetcAndInTakeHeadKey := by
  intro s b rest hk i hi
  have hexec : exec i s = .next ((s.link.setKbd rest).writeDest serviceReg (zext b)) := by
    rw [exec_readChar_none hi, readCharService_cons hk, if_neg nofun, State.emit_nil]
  have hother : ∀ r ≠ serviceReg, ((s.link.setKbd rest).writeDest serviceReg (zext b)).reg r = s.link.reg r :=
    fun r hr => State.reg_writeDest_ne _ _ hr
  refine ⟨_, hexec, ?_, ?_, (hother 7 (by decide)).trans (State.reg_link_same s), ?_, rfl, rfl, rfl, rfl, rfl, rfl⟩
  · exact (congrArg BitVec.toNat (State.reg_writeDest_same _ serviceReg _)).trans (toNat_zext (by decide) b)
  · exact (State.cc_writeDest _ serviceReg _).trans (classify_zext b)
  · intro r hr
    obtain ⟨h0, h7⟩ : r ≠ serviceReg ∧ r ≠ linkReg := by simpa using hr
    exact (hother r h0).trans (State.reg_link_ne s h7)

/-- Settles O34: under `echo` the service differs in what it emits alone. -/
theorem inEchoesOnlyWhenConfigured : Obligations.InEchoesOnlyWhenConfigured :=
  ⟨fun _ _ => rfl, fun _ => rfl, fun _ _ _ hk =>
    ⟨_, readCharService_cons hk .none, readCharService_cons hk .none, readCharService_cons hk .echo⟩⟩

/-- A hold takes the fetch's increment back. -/
theorem hold_setPc_succ (s : State) : hold (s.setPc (s.pc + 1)) = .next s := by
  simp [hold, State.setPc]

/-- Settles O35: the fetched GETC or IN finds no key and is held. -/
theorem getcAndInHeldWithoutKey : Obligations.GetcAndInHeldWithoutKey := by
  intro s hrun hk hpc hi
  rw [step_running_ordinary hrun hpc, exec_readChar_none hi, readCharService_nil (s := s.setPc (s.pc + 1)) hk,
    hold_setPc_succ]

/-! OUT, HALT and the unrecognised vectors (R202, R206, R207). -/

theorem extractLsb'_zero_eight (w : Word) : w.extractLsb' 0 8 = BitVec.ofNat 8 (w.toNat % 256) := by
  apply BitVec.eq_of_toNat_eq
  simp

/-- Settles O37: the link, and the low byte of R0, which the link leaves. -/
theorem outWritesLowByte : Obligations.OutWritesLowByte := by
  intro s
  have hbyte : (s.link.reg serviceReg).extractLsb' 0 8 = BitVec.ofNat 8 ((s.reg 0).toNat % 256) := by
    rw [reg_serviceReg_link, extractLsb'_zero_eight]
  exact ⟨_, rfl, congrArg (fun c => s.out ++ [c]) hbyte, State.reg_link_same s, regsExcept_link s, rfl, rfl, rfl, rfl,
    rfl, rfl⟩

/-- Settles O41: the link, the notice and the run state, in which no step exists. -/
theorem haltStopsTheMachine : Obligations.HaltStopsTheMachine := fun s =>
  ⟨(s.link.notice .haltNotice).setRun .halted, rfl, rfl, rfl, State.reg_link_same s, regsExcept_link s, rfl, rfl, rfl,
    rfl, rfl, rfl⟩

theorem afterUnknownVector_afterUnknown (fatal : Bool) (v : BitVec 8) (s : State) :
    AfterUnknownVector fatal v s (afterUnknown fatal v s) :=
  ⟨(reg_afterUnknown ..).trans (State.reg_link_same s),
    fun r hr => (reg_afterUnknown ..).trans (regsExcept_link s r hr), pc_afterUnknown .., cc_afterUnknown ..,
    mem_afterUnknown .., kbd_afterUnknown .., out_afterUnknown .., run_afterUnknown .., notes_afterUnknown ..⟩

/-- Settles O42: a vector outside the services runs `unknownVector` under the parameter. -/
theorem unknownVectorNotices : Obligations.UnknownVectorNotices := by
  intro s v
  have hrule : ∀ fatal, ∃ t, unknownVector fatal v s = .next t ∧ AfterUnknownVector fatal v s t := fun fatal =>
    ⟨_, unknownVector_eq fatal v s, afterUnknownVector_afterUnknown fatal v s⟩
  refine ⟨fun hv => ?_, hrule⟩
  have hwith : ∀ o, execWith o (.trap v) s = unknownVector o.unknownTrapFatal v s := trapWith_unknown s hv
  refine ⟨?_, fun o => hwith o ▸ hrule o.unknownTrapFatal⟩
  rw [← execWith_options, hwith]
  exact hrule false

/-! The reads of a string scan (R203, R205). -/

theorem keptByReads_poll (s : State) : KeptByReads s s.poll :=
  readEffect_status s ▸ keptByReads_readEffect s params.kbsrAddr

theorem ScanReads.keptByReads {ws : List Word} {a : Word} {s u : State} (h : ScanReads a ws s u) :
    KeptByReads s u := by
  induction ws generalizing a s with
  | nil => exact h.2 ▸ keptByReads_readEffect s a
  | cons w ws ih =>
    obtain ⟨-, -, hrest⟩ := h
    exact (keptByReads_readEffect s a).trans (ih hrest)

/-- A scan from any address ends. -/
theorem exists_scanReads (a : Word) (s : State) : ∃ ws u, ScanReads a ws s u := by
  obtain ⟨ws, u, -, h⟩ := scanReads_total (le_refl (65536 * s.kbd.length + (params.kbsrAddr - a).toNat + 1))
  exact ⟨ws, u, h⟩

/-- With no key waiting the status address ends the string. -/
theorem RunsIntoStatus.scanReads_nil {s : State} {ws : List Word} {a : Word} (h : RunsIntoStatus s a ws)
    (hk : s.kbd = []) : ScanReads a ws s s.poll := by
  have hend : ScanReads params.kbsrAddr [] s s.poll := ⟨memRead_status_nil hk, (readEffect_status s).symm⟩
  simpa using h.scanReads hend

/-- With a key waiting the scan reads the ready word at the status address and goes on after it. -/
theorem RunsIntoStatus.scanReads_cons {s u : State} {ws ws' : List Word} {a : Word} {b : Byte} {rest : List Byte}
    (h : RunsIntoStatus s a ws) (hk : s.kbd = b :: rest) (hrest : ScanReads (params.kbsrAddr + 1) ws' s.poll u) :
    ScanReads a (ws ++ params.kbsrReady :: ws') s u :=
  h.scanReads ⟨memRead_status_cons hk, by decide, by simpa using hrest⟩

/-! What PUTS and PUTSP do with the words their scan reads. -/

/-- A string service that has bytes for every word its scan reads links, and emits these bytes. -/
theorem scanString_service {chars : Word → Option (List Byte)} {f : Word → List Byte} {ws : List Word} {s u : State}
    (h : ScanReads (s.reg 0) ws s u) (hf : ∀ w ∈ ws, chars w = some (f w)) :
    scanString chars (scanBound s) ((trapEntry s).reg serviceReg) (trapEntry s) =
      .next (u.link.emit (ws.flatMap f)) := by
  rw [trapEntry, reg_serviceReg_link]
  exact scanString_of_reads h.link hf h.length_lt

theorem putsEmit_eq_some {wide : PutsWide} {w : Word} (h : w.toNat ≤ 0xFF ∨ wide = .lowByte) :
    putsEmit wide w = some [lowByte w] := by
  unfold putsEmit
  split
  · rfl
  · next hw => rw [h.resolve_left hw]; rfl

theorem putsEmit_refuse {w : Word} (h : 0xFF < w.toNat) : putsEmit .refuse w = none := if_neg (Nat.not_le.2 h)

theorem putspEmit_eq_some (w : Word) : putspEmit w = some (packedBytes w) := by
  by_cases hhigh : w.extractLsb' 8 8 = 0#8 <;> simp [putspEmit, packedBytes, hhigh]

theorem putsService_of_reads {wide : PutsWide} {ws : List Word} {s u : State} (h : ScanReads (s.reg 0) ws s u)
    (hw : (∀ w ∈ ws, w.toNat ≤ 0xFF) ∨ wide = .lowByte) :
    putsService wide s = .next (u.link.emit (ws.map lowByte)) := by
  rw [List.map_eq_flatMap]
  exact scanString_service h fun w hmem => putsEmit_eq_some (hw.imp_left (· w hmem))

theorem putsService_refused {ws : List Word} {s u : State} (h : ScanReads (s.reg 0) ws s u)
    (hw : ∃ w ∈ ws, 0xFF < w.toNat) : putsService .refuse s = .refused .putsWideWord := by
  rw [putsService, trapEntry, reg_serviceReg_link]
  obtain ⟨w, hmem, hwide⟩ := hw
  exact scanString_refused h.link ⟨w, hmem, putsEmit_refuse hwide⟩ h.length_lt

theorem exec_trapPutsp_of_reads {ws : List Word} {s u : State} (h : ScanReads (s.reg 0) ws s u) :
    exec .trapPutsp s = .next (u.link.emit (ws.flatMap packedBytes)) :=
  scanString_service h fun w _ => putspEmit_eq_some w

/-! What a string service leaves, said once for PUTS and PUTSP: `r` is its outcome, `bs` the bytes it emits. -/

section StringService

variable {r : Host.Outcome State Fault Refusal} {s u : State} {b : Byte} {rest bs : List Byte}

theorem KeptByReads.stringServiceFrame (hu : KeptByReads s u) (bs : List Byte) :
    StringServiceFrame s (u.link.emit bs) :=
  ⟨(State.reg_link_same u).trans hu.pc, fun i hi => (regsExcept_link u i hi).trans (hu.reg i), hu.pc, hu.cc, hu.run,
    hu.notes⟩

theorem KeptByReads.out_link_emit (hu : KeptByReads s u) (bs : List Byte) : (u.link.emit bs).out = s.out ++ bs :=
  congrArg (· ++ bs) hu.out

/-- The scan is clear of the status address: its reads change nothing. -/
theorem completes_of_clear_scan (h : r = .next (s.link.emit bs)) :
    ∃ t, r = .next t ∧ t.out = s.out ++ bs ∧ StringServiceFrame s t ∧ t.mem = s.mem ∧ t.kbd = s.kbd :=
  ⟨_, h, rfl, (KeptByReads.refl s).stringServiceFrame bs, rfl, rfl⟩

/-- The scan ends at the status address, with one poll that finds no key. -/
theorem completes_of_scan_into_status (hk : s.kbd = []) (h : r = .next (s.poll.link.emit bs)) :
    ∃ t, r = .next t ∧ t.out = s.out ++ bs ∧ StringServiceFrame s t ∧ t.mem.readWord params.kbsrAddr = 0 ∧
      MemoryExcept [params.kbsrAddr] s t ∧ t.kbd = [] := by
  obtain ⟨-, hnil, -⟩ := busRead_memRead params.kbsrAddr s
  rw [memRead_snd, readEffect_status] at hnil
  obtain ⟨-, hstatus, hmem, hkbd⟩ := hnil rfl hk
  have hu := keptByReads_poll s
  exact ⟨_, h, hu.out_link_emit bs, hu.stringServiceFrame bs, hstatus, hmem, hkbd⟩

/-- The scan passes the status address once, with one poll that takes a key. -/
theorem completes_of_scan_past_status (hk : s.kbd = b :: rest) (h : r = .next (s.poll.link.emit bs)) :
    ∃ t, r = .next t ∧ t.out = s.out ++ bs ∧ StringServiceFrame s t ∧
      t.mem.readWord params.kbsrAddr = params.kbsrReady ∧ (t.mem.readWord params.kbdrAddr).toNat = b.toNat ∧
      MemoryExcept [params.kbsrAddr, params.kbdrAddr] s t ∧ t.kbd = rest := by
  obtain ⟨-, -, hcons, -⟩ := busRead_memRead params.kbsrAddr s
  rw [memRead_snd, readEffect_status] at hcons
  obtain ⟨-, hstatus, hdata, hmem, hkbd⟩ := hcons b rest rfl hk
  have hu := keptByReads_poll s
  exact ⟨_, h, hu.out_link_emit bs, hu.stringServiceFrame bs, hstatus, hdata, hmem, hkbd⟩

end StringService

/-- Settles O38: the reads of each kind of string, and what PUTS does with them. Under `refuse` the ready word of a poll
with a key is already too wide, whatever follows it. -/
theorem putsPrintsString : Obligations.PutsPrintsString := by
  refine ⟨fun s ws h => ⟨fun wide hw => ?_, putsService_refused h.scanReads⟩,
    fun s ws h hk => ⟨fun wide hw => ?_, putsService_refused (h.scanReads_nil hk)⟩,
    fun s ws b rest h hk => ⟨fun ws' h' => ?_, ?_⟩, fun _ _ => rfl, fun _ => rfl⟩
  · exact completes_of_clear_scan (putsService_of_reads h.scanReads hw)
  · exact completes_of_scan_into_status hk (putsService_of_reads (h.scanReads_nil hk) hw)
  · exact completes_of_scan_past_status hk (putsService_of_reads (h.scanReads_cons hk h'.scanReads) (.inr rfl))
  · obtain ⟨ws', u, hrest⟩ := exists_scanReads (params.kbsrAddr + 1) s.poll
    exact putsService_refused (h.scanReads_cons hk hrest) ⟨params.kbsrReady, by simp, by decide⟩

/-- Settles O39: the reads of each kind of string, and what PUTSP does with them. -/
theorem putspPrintsPackedString : Obligations.PutspPrintsPackedString := by
  refine ⟨fun s ws h => ?_, fun s ws h hk => ?_, fun s ws ws' b rest h hk h' => ?_⟩
  · exact completes_of_clear_scan (exec_trapPutsp_of_reads h.scanReads)
  · exact completes_of_scan_into_status hk (exec_trapPutsp_of_reads (h.scanReads_nil hk))
  · exact completes_of_scan_past_status hk (exec_trapPutsp_of_reads (h.scanReads_cons hk h'.scanReads))

/-- PUTS and PUTSP emit the bytes of the words their scan reads. -/
theorem exec_stringService_of_reads {i : Instr} (hi : i = .trapPuts ∨ i = .trapPutsp) {ws : List Word} {s u : State}
    (h : ScanReads (s.reg 0) ws s u) : exec i s =
      .next (u.link.emit (if i = .trapPuts then ws.map lowByte else ws.flatMap packedBytes)) := by
  rcases hi with rfl | rfl
  · exact putsService_of_reads h (.inr rfl)
  · exact exec_trapPutsp_of_reads h

/-- Settles O40: the scan from R0 ends, and both services run on its reads. -/
theorem stringServicesAlwaysComplete : Obligations.StringServicesAlwaysComplete := by
  intro s
  obtain ⟨ws, u, h⟩ := exists_scanReads (s.reg 0) s
  have hu : KeptByReads s u := h.keptByReads
  exact ⟨ws, u, h, fun i hi => ⟨_, exec_stringService_of_reads hi h, hu.out_link_emit _, rfl, rfl,
    hu.stringServiceFrame _, hu.kbd, hu.mem⟩⟩

end Sys2Proof.Machine
end

section
/-! PROOFS. Raising a fault (60_exceptions.md R241). -/

namespace Sys2Proof.Machine

theorem regsExcept_setRun_notice (s : State) (r : RunState) (k : Notice) : RegsExcept [] s ((s.setRun r).notice k) :=
  fun i _ => (State.reg_notice (s.setRun r) k i).trans (State.reg_setRun s r i)

/-- Settles O44: the run state and the notice are all that `raise Fault(r)` writes, and no step exists in FAULTED (R30). -/
theorem raiseFaultIsTerminal : Obligations.RaiseFaultIsTerminal := by
  intro r s
  obtain ⟨-, -, step_of_faulted⟩ := stepExistsOnlyInRunning ((s.setRun .faulted).notice (.faultDiag r))
  have hrun : ((s.setRun .faulted).notice (.faultDiag r)).run = .faulted := State.run_notice ..
  exact ⟨_, rfl, hrun, State.notes_notice .., regsExcept_setRun_notice s _ _, rfl, rfl, rfl, rfl, rfl,
    step_of_faulted hrun⟩

end Sys2Proof.Machine
end

section
/-! PROOFS. Images and the reset that loads them (10_state.md R41; 70_reset_and_hazards.md R270 to R275). -/

namespace Sys2Proof.Machine

/-! The reset state. -/

@[simp] theorem reg_reset (r : Reg) : State.reset.reg r = 0 := Vector.getElem_replicate r.isLt

/-- Settles O8: the registers, and the fields as they are written. -/
theorem resetRegistersAndRunState : Obligations.ResetRegistersAndRunState := ⟨reg_reset, rfl, rfl, rfl⟩

/-! Words from bytes (R273, R275). -/

theorem toNat_wordOfBytes (hi lo : Byte) : (wordOfBytes hi lo).toNat = hi.toNat * 256 + lo.toNat := by
  rw [wordOfBytes, BitVec.toNat_append, ← Nat.shiftLeft_add_eq_or_of_lt lo.isLt, Nat.shiftLeft_eq]

@[simp] theorem wordsOfBytes_cons_cons (hi lo : Byte) (rest : List Byte) :
    wordsOfBytes (hi :: lo :: rest) = (wordsOfBytes rest).map (wordOfBytes hi lo :: ·) := rfl

theorem wordsOfBytes_pairs (pairs : List (Byte × Byte)) :
    wordsOfBytes (pairs.flatMap fun b => [b.1, b.2]) = some (pairs.map fun b => wordOfBytes b.1 b.2) := by
  induction pairs with
  | nil => rfl
  | cons b pairs ih => simp [ih]

theorem wordsOfBytes_flatMap_bytesOfWord (ws : List Word) : wordsOfBytes (ws.flatMap bytesOfWord) = some ws := by
  induction ws with
  | nil => rfl
  | cons w ws ih =>
    have hword : wordOfBytes (w.extractLsb' 8 8) (w.extractLsb' 0 8) = w := word_halves w
    simp [bytesOfWord, hword, ← ih]

/-- Only whole words are read, two bytes each. -/
theorem length_of_wordsOfBytes {bytes : List Byte} {ws : List Word} (h : wordsOfBytes bytes = some ws) :
    bytes.length = 2 * ws.length := by
  induction bytes using wordsOfBytes.induct generalizing ws with
  | case1 =>
    cases h
    rfl
  | case2 => cases h
  | case3 hi lo rest ih =>
    obtain ⟨ws', hrest, rfl⟩ := Option.map_eq_some_iff.1 h
    simp only [List.length_cons, ih hrest]
    omega

/-! What the bytes of an image parse to (R273 to R275). -/

theorem parseImage_of_fits {bytes : List Byte} {img : Image} (h : wordsOfBytes bytes = some (img.origin :: img.words))
    (hfits : img.fits) : parseImage bytes = .ok img := by
  simp only [parseImage, h]
  exact if_pos hfits

theorem parseImage_of_not_fits {bytes : List Byte} {img : Image}
    (h : wordsOfBytes bytes = some (img.origin :: img.words)) (hfits : ¬ img.fits) :
    parseImage bytes = .error .imageTooLarge := by
  simp only [parseImage, h]
  exact if_neg hfits

theorem wordsOfBytes_imageBytes (img : Image) : wordsOfBytes img.bytes = some (img.origin :: img.words) :=
  wordsOfBytes_flatMap_bytesOfWord _

theorem parseImage_malformed {bytes : List Byte} (h : bytes.length % 2 = 1 ∨ bytes.length < 2) :
    ∃ e, parseImage bytes = .error e := by
  match hwords : wordsOfBytes bytes with
  | none => exact ⟨.imageOddLength, by simp only [parseImage, hwords]⟩
  | some [] => exact ⟨.noOrigin, by simp only [parseImage, hwords]⟩
  | some (o :: ws) =>
    have hlen : bytes.length = 2 * (ws.length + 1) := length_of_wordsOfBytes hwords
    omega

/-! The words of an image in memory (R272), by their distance from the origin modulo 65536. -/

/-- The distance from the next origin is one less, but at the origin itself, where it is the largest. -/
theorem toNat_sub_succ (a o : Word) : (a - (o + 1)).toNat = if a = o then 65535 else (a - o).toNat - 1 := by
  split <;> bv_omega

/-- Words that fill at most the whole memory, so that none lies over another. -/
theorem readWord_loadWords (o : Word) {ws : List Word} (h : ws.length ≤ 65536) (m : Memory) (a : Word) :
    (loadWords o ws m).readWord a = ws[(a - o).toNat]?.getD (m.readWord a) := by
  induction ws generalizing o m with
  | nil => rfl
  | cons w ws ih =>
    rw [List.length_cons] at h
    rw [loadWords, ih (o + 1) (by omega), toNat_sub_succ]
    by_cases ha : a = o
    · have hlast : ws[65535]? = none := List.getElem?_eq_none (by omega)
      simp [ha, hlast]
    · have hdist : (a - o).toNat ≠ 0 := by bv_omega
      rw [if_neg ha, Memory.readWord_writeWord_ne m w ha, List.getElem?_cons, if_neg hdist]

theorem wordAt_of_fits {img : Image} (h : img.fits) (a : Word) : img.wordAt a = img.words[(a - img.origin).toNat]? := by
  unfold Image.fits at h
  rw [Image.wordAt, BitVec.toNat_sub]
  split
  · congr 1
    omega
  · exact (List.getElem?_eq_none (by omega)).symm

theorem readWord_loadImage {img : Image} (h : img.fits) (m : Memory) (a : Word) :
    (loadWords img.origin img.words m).readWord a = (img.wordAt a).getD (m.readWord a) := by
  rw [wordAt_of_fits h, readWord_loadWords img.origin (Nat.le_trans h (Nat.sub_le ..))]

theorem readWord_loadImage_index {img : Image} (h : img.fits) (m : Memory) {i : Nat} (hi : i < img.words.length) :
    (loadWords img.origin img.words m).readWord (BitVec.ofNat 16 (img.origin.toNat + i)) = img.words[i] := by
  unfold Image.fits at h
  have hdist : (BitVec.ofNat 16 (img.origin.toNat + i) - img.origin).toNat = i := by bv_omega
  rw [readWord_loadWords _ (by omega), hdist, List.getElem?_eq_getElem hi, Option.getD_some]

theorem wf_loadWords {m : Memory} (h : m.wf = true) (o : Word) (ws : List Word) : (loadWords o ws m).wf = true := by
  induction ws generalizing o m with
  | nil => exact h
  | cons w ws ih => exact ih (Memory.wf_writeWord h o w) (o + 1)

/-- Settles O10: origin and words are read pair by pair, and an image that fits does not wrap over itself. -/
theorem imageFormatIsBigEndian : Obligations.ImageFormatIsBigEndian := by
  intro hi lo pairs hlen
  have hwords := wordsOfBytes_pairs ((hi, lo) :: pairs)
  have hfits : (Image.mk (wordOfBytes hi lo) (pairs.map fun b => wordOfBytes b.1 b.2)).fits := by
    simpa only [Image.fits, List.length_map, toNat_wordOfBytes] using hlen
  refine ⟨_, parseImage_of_fits (img := ⟨_, _⟩) hwords hfits, toNat_wordOfBytes hi lo, ?_,
    fun m _ h => readWord_loadImage_index hfits m h⟩
  simp [toNat_wordOfBytes]

/-! Loading several images (R272): an error of any image is an error of the whole. -/

theorem loadImages_cons_ok {bytes : List Byte} {img : Image} (h : parseImage bytes = .ok img) (rest : List (List Byte))
    (m : Memory) : loadImages (bytes :: rest) m = loadImages rest (loadWords img.origin img.words m) := by
  simp only [loadImages, h]

theorem loadImages_cons_error {bytes : List Byte} {e : ImageError} (h : parseImage bytes = .error e)
    (rest : List (List Byte)) (m : Memory) : loadImages (bytes :: rest) m = .error e := by
  simp only [loadImages, h]

theorem loadImages_error {bytes : List Byte} {e : ImageError} (h : parseImage bytes = .error e)
    (before after : List (List Byte)) (m : Memory) : ∃ e', loadImages (before ++ bytes :: after) m = .error e' := by
  induction before generalizing m with
  | nil => exact ⟨e, loadImages_cons_error h after m⟩
  | cons first before ih =>
    match hfirst : parseImage first with
    | .error e' => exact ⟨e', loadImages_cons_error hfirst _ m⟩
    | .ok img =>
      rw [List.cons_append, loadImages_cons_ok hfirst]
      exact ih _

/-- What the images that fit leave in a canonical memory: the last one that covers an address gives its word. -/
theorem loadImages_bytes {images : List Image} (h : ∀ img ∈ images, img.fits) {m : Memory} (hm : m.wf = true) :
    ∃ m' : Memory, loadImages (images.map Image.bytes) m = .ok m' ∧ m'.wf = true ∧
      ∀ a, m'.readWord a = (images.reverse.findSome? fun img => img.wordAt a).getD (m.readWord a) := by
  induction images generalizing m with
  | nil => exact ⟨m, rfl, hm, fun _ => rfl⟩
  | cons img images ih =>
    obtain ⟨hfits, hrest⟩ := List.forall_mem_cons.1 h
    obtain ⟨m', hload, hwf, hread⟩ := ih hrest (wf_loadWords hm img.origin img.words)
    have hparse : parseImage img.bytes = .ok img := parseImage_of_fits (wordsOfBytes_imageBytes img) hfits
    refine ⟨m', (loadImages_cons_ok hparse ..).trans hload, hwf, fun a => ?_⟩
    have hone : [img].findSome? (fun img => img.wordAt a) = img.wordAt a := List.findSome?_singleton
    rw [hread, readWord_loadImage hfits, List.reverse_cons, List.findSome?_append, hone, Option.getD_or]

/-! The reset with images. -/

theorem boot_of_loadImages {images : List (List Byte)} (hne : images ≠ []) {m : Memory}
    (h : loadImages images State.reset.mem = .ok m) (keys : List Byte) :
    boot images keys = .ok ((State.reset.setMem m).setKbd keys) := by
  obtain ⟨first, rest, rfl⟩ := List.exists_cons_of_ne_nil hne
  simp only [boot, h]

theorem boot_error {images : List (List Byte)} (hne : images ≠ []) {e : ImageError}
    (h : loadImages images State.reset.mem = .error e) (keys : List Byte) : boot images keys = .error e := by
  obtain ⟨first, rest, rfl⟩ := List.exists_cons_of_ne_nil hne
  simp only [boot, h]

theorem boot_error_of_parseImage {bytes : List Byte} {e : ImageError} (h : parseImage bytes = .error e)
    (before after : List (List Byte)) (keys : List Byte) : ∃ e', boot (before ++ bytes :: after) keys = .error e' := by
  obtain ⟨e', he'⟩ := loadImages_error h before after State.reset.mem
  exact ⟨e', boot_error (by simp) he' keys⟩

/-- Settles O11: the images are loaded into the zero memory of the reset state, whose other fields stay. -/
theorem bootLoadsImagesLastWins : Obligations.BootLoadsImagesLastWins := by
  intro images keys hne hfits
  obtain ⟨m, hload, hwf, hread⟩ := loadImages_bytes hfits (m := State.reset.mem) rfl
  have hboot := boot_of_loadImages (mt List.map_eq_nil_iff.1 hne) hload keys
  refine ⟨_, hboot, fun a => ?_, reg_reset, rfl, rfl, rfl, rfl, rfl, rfl, hwf⟩
  have hzero : State.reset.mem.readWord a = 0 := readWord_nil a
  exact (hread a).trans (by rw [hzero, lastLoaded])

/-- Settles O12: the image parses to an error, which is the launch's own if no other image comes before. -/
theorem bootRejectsTooLargeImage : Obligations.BootRejectsTooLargeImage := by
  intro before img after keys hfits
  have hparse := parseImage_of_not_fits (wordsOfBytes_imageBytes img) hfits
  obtain ⟨e, he⟩ := boot_error_of_parseImage hparse before after keys
  refine ⟨e, he, ?_⟩
  rintro rfl
  have hfirst := boot_error (List.cons_ne_nil img.bytes after) (loadImages_cons_error hparse after State.reset.mem) keys
  exact Except.error.inj (he.symm.trans hfirst)

/-- Settles O13: the image parses to an error. -/
theorem bootRejectsMalformedImage : Obligations.BootRejectsMalformedImage := by
  intro before bytes after keys h
  obtain ⟨e, hparse⟩ := parseImage_malformed h
  exact boot_error_of_parseImage hparse before after keys

end Sys2Proof.Machine
end
